-- ==== Sys2Proof/Word.lean ====
section
/-! DEFINITION. The words of the core (00_scope.md R5, R7): bytes, 16-bit words, 12-bit address immediates,
nibbles and register indices. All values are unsigned. -/

namespace Sys2Proof

/-- An 8-bit value: a general register, a timer, a memory location (R5). -/
abbrev Byte := BitVec 8

/-- A 16-bit value: `I`, `PC`, a stack slot, an instruction word (R5). -/
abbrev Word := BitVec 16

/-- The 12-bit address immediate `nnn` (R71). -/
abbrev Addr12 := BitVec 12

/-- A 4-bit field of the instruction word (R12). -/
abbrev Nibble := BitVec 4

/-- The index of one of the sixteen general registers (R20): every index a 4-bit field can name exists. -/
abbrev RegIdx := Fin 16

/-- Index 15, the flag register `F` (R5 `FLAG_REG`, R23). -/
abbrev flagReg : RegIdx := 15

end Sys2Proof
end

