-- ==== Sys2Proof/Syntax.lean ====
section
/-! DEFINITION. The instruction set: one constructor per row of 30_encoding.md R75 and of spec/opcode_table.json, in the
table's order. `x` and `y` are register indices, `nn` the 8-bit immediate, `nnn` the 12-bit address immediate, `n` the row
count of a sprite (R71, R73). -/

namespace Sys2Proof

/-- The 35 instructions (R75). -/
inductive Instr where
  /-- `0000`, no-op (R101). -/
  | nop
  /-- `00E0`, clear the display (R151). -/
  | cls
  /-- `00EE`, return (R102). -/
  | ret
  /-- `1nnn`, jump (R103). -/
  | jp (nnn : Addr12)
  /-- `2nnn`, call (R104). -/
  | call (nnn : Addr12)
  /-- `3xnn`, skip if equal to the immediate (R106). -/
  | seImm (x : RegIdx) (nn : Byte)
  /-- `4xnn`, skip if not equal to the immediate (R107). -/
  | sneImm (x : RegIdx) (nn : Byte)
  /-- `5xy0`, skip if the registers are equal (R108). -/
  | seReg (x y : RegIdx)
  /-- `6xnn`, load the immediate (R121). -/
  | ldImm (x : RegIdx) (nn : Byte)
  /-- `7xnn`, add the immediate (R122). -/
  | addImm (x : RegIdx) (nn : Byte)
  /-- `8xy0`, copy a register (R123). -/
  | ldReg (x y : RegIdx)
  /-- `8xy1`, bitwise or (R124). -/
  | orReg (x y : RegIdx)
  /-- `8xy2`, bitwise and (R125). -/
  | andReg (x y : RegIdx)
  /-- `8xy3`, bitwise exclusive or (R126). -/
  | xorReg (x y : RegIdx)
  /-- `8xy4`, add with carry flag (R127). -/
  | addReg (x y : RegIdx)
  /-- `8xy5`, subtract with not-borrow flag (R128). -/
  | subReg (x y : RegIdx)
  /-- `8xy6`, shift right by one; `y` is decoded and ignored (R129). -/
  | shr (x y : RegIdx)
  /-- `8xy7`, subtract the other way (R130). -/
  | subnReg (x y : RegIdx)
  /-- `8xyE`, shift left by one; `y` is decoded and ignored (R132). -/
  | shl (x y : RegIdx)
  /-- `9xy0`, skip if the registers differ (R109). -/
  | sneReg (x y : RegIdx)
  /-- `Annn`, load the address register (R140). -/
  | ldI (nnn : Addr12)
  /-- `Bnnn`, jump to `V[0] + nnn` (R105). -/
  | jpV0 (nnn : Addr12)
  /-- `Cxnn`, random byte (R133). -/
  | rnd (x : RegIdx) (nn : Byte)
  /-- `Dxyn`, draw a sprite of `n` rows (R152); `n` is a count, bounded by its four-bit field in WellFormed. -/
  | drw (x y : RegIdx) (n : Nat)
  /-- `Ex9E`, skip if the key is pressed (R160). -/
  | skp (x : RegIdx)
  /-- `ExA1`, skip if the key is released (R161). -/
  | sknp (x : RegIdx)
  /-- `Fx07`, read the delay timer (R163). -/
  | ldVxDT (x : RegIdx)
  /-- `Fx0A`, wait for a key (R164). -/
  | ldVxK (x : RegIdx)
  /-- `Fx15`, write the delay timer (R165). -/
  | ldDTVx (x : RegIdx)
  /-- `Fx18`, write the sound timer (R166). -/
  | ldSTVx (x : RegIdx)
  /-- `Fx1E`, add to the address register (R141). -/
  | addIVx (x : RegIdx)
  /-- `Fx29`, address of a glyph (R142). -/
  | ldFVx (x : RegIdx)
  /-- `Fx33`, binary-coded decimal (R143). -/
  | ldBVx (x : RegIdx)
  /-- `Fx55`, store `V[0]` to `V[x]` (R144). -/
  | storeRegs (x : RegIdx)
  /-- `Fx65`, load `V[0]` to `V[x]` (R145). -/
  | loadRegs (x : RegIdx)
  deriving DecidableEq, Repr

end Sys2Proof
end

