-- ==== Sys2Proof/Decode.lean ====
section
/-! DEFINITION. The decoder (30_encoding.md R70 to R77) and after it the encoder, both over the fields of R71 and the
layouts of R72; the opcode map of R75 as data; and the host's reading of one table word. -/

namespace Sys2Proof

/-! ### Bytes and words -/

/-- The big-endian word of two bytes: the byte at the lower address is the high byte (R70, 20_memory.md R55). -/
def wordOfBytes (hi lo : Byte) : Word := BitVec.ofNat 16 (hi.toNat * 0x100 + lo.toNat)

/-- The byte stored at the lower address: `w[15:8]` (R55). -/
def hiByte (w : Word) : Byte := w.extractLsb' 8 8

/-- The byte stored at the higher address: `w[7:0]` (R55). -/
def loByte (w : Word) : Byte := w.extractLsb' 0 8

/-! ### The fields of R71 -/

/-- `n1` = `w[15:12]`, the opcode class. -/
def fieldN1 (w : Word) : Nibble := w.extractLsb' 12 4

/-- `n2` = `x` = `w[11:8]`. -/
def fieldX (w : Word) : Nibble := w.extractLsb' 8 4

/-- `n3` = `y` = `w[7:4]`. -/
def fieldY (w : Word) : Nibble := w.extractLsb' 4 4

/-- `n4` = `n` = `w[3:0]`. -/
def fieldN (w : Word) : Nibble := w.extractLsb' 0 4

/-- `nn` = `w[7:0]`. -/
def fieldNN (w : Word) : Byte := w.extractLsb' 0 8

/-- `nnn` = `w[11:0]`. -/
def fieldNNN (w : Word) : Addr12 := w.extractLsb' 0 12

/-- The register a nibble names (R73: it "always name[s] an existing register"). -/
def nibbleReg (b : Nibble) : RegIdx := ⟨b.toNat, b.isLt⟩

/-! ### Decoding -/

/-- Why bytes are not an instruction. -/
inductive DecodeError where
  /-- The word matches no row of R75: an unsupported instruction (R76). -/
  | unsupported (w : Word)
  /-- Fewer than the two bytes every instruction has (R70). -/
  | truncated
  deriving DecidableEq, Repr

/-- The instruction a word selects (R74, R75), or its rejection by name (R76). A pure function of the word. -/
def decodeWord (w : Word) : Except DecodeError Instr :=
  let x := nibbleReg (fieldX w)
  let y := nibbleReg (fieldY w)
  let nn := fieldNN w
  let nnn := fieldNNN w
  match (fieldN1 w).toNat with
  | 0x0 =>
    if w = 0x0000 then .ok .nop
    else if w = 0x00E0 then .ok .cls
    else if w = 0x00EE then .ok .ret
    else .error (.unsupported w)
  | 0x1 => .ok (.jp nnn)
  | 0x2 => .ok (.call nnn)
  | 0x3 => .ok (.seImm x nn)
  | 0x4 => .ok (.sneImm x nn)
  | 0x5 => if fieldN w = 0x0 then .ok (.seReg x y) else .error (.unsupported w)
  | 0x6 => .ok (.ldImm x nn)
  | 0x7 => .ok (.addImm x nn)
  | 0x8 =>
    match (fieldN w).toNat with
    | 0x0 => .ok (.ldReg x y)
    | 0x1 => .ok (.orReg x y)
    | 0x2 => .ok (.andReg x y)
    | 0x3 => .ok (.xorReg x y)
    | 0x4 => .ok (.addReg x y)
    | 0x5 => .ok (.subReg x y)
    | 0x6 => .ok (.shr x y)
    | 0x7 => .ok (.subnReg x y)
    | 0xE => .ok (.shl x y)
    | _ => .error (.unsupported w)
  | 0x9 => if fieldN w = 0x0 then .ok (.sneReg x y) else .error (.unsupported w)
  | 0xA => .ok (.ldI nnn)
  | 0xB => .ok (.jpV0 nnn)
  | 0xC => .ok (.rnd x nn)
  | 0xD => .ok (.drw x y (fieldN w).toNat)
  | 0xE =>
    if nn = 0x9E then .ok (.skp x)
    else if nn = 0xA1 then .ok (.sknp x)
    else .error (.unsupported w)
  | 0xF =>
    match nn.toNat with
    | 0x07 => .ok (.ldVxDT x)
    | 0x0A => .ok (.ldVxK x)
    | 0x15 => .ok (.ldDTVx x)
    | 0x18 => .ok (.ldSTVx x)
    | 0x1E => .ok (.addIVx x)
    | 0x29 => .ok (.ldFVx x)
    | 0x33 => .ok (.ldBVx x)
    | 0x55 => .ok (.storeRegs x)
    | 0x65 => .ok (.loadRegs x)
    | _ => .error (.unsupported w)
  | _ => .error (.unsupported w)

/-- Decoding a byte sequence: the first instruction and the bytes after it (R70: always two bytes, high byte first). -/
def decode : List Byte → Except DecodeError (Instr × List Byte)
  | hi :: lo :: rest =>
    match decodeWord (wordOfBytes hi lo) with
    | .ok i => .ok (i, rest)
    | .error e => .error e
  | _ => .error .truncated

/-! ### Encoding -/

/-- Layout `NNN` (R72): class and address immediate. -/
def layoutNNN (c : Nibble) (nnn : Addr12) : Word := BitVec.ofNat 16 (c.toNat * 0x1000 + nnn.toNat)

/-- Layouts `XNN` and `X` (R72): class, register, low byte. -/
def layoutXNN (c : Nibble) (x : RegIdx) (nn : Byte) : Word :=
  BitVec.ofNat 16 (c.toNat * 0x1000 + x.val * 0x100 + nn.toNat)

/-- Layouts `XY` and `XYN` (R72): class, two registers, last nibble. -/
def layoutXYN (c : Nibble) (x y : RegIdx) (n : Nibble) : Word :=
  BitVec.ofNat 16 (c.toNat * 0x1000 + x.val * 0x100 + y.val * 0x10 + n.toNat)

/-- The word of an instruction (R75). -/
def encodeWord : Instr → Word
  | .nop => 0x0000
  | .cls => 0x00E0
  | .ret => 0x00EE
  | .jp nnn => layoutNNN 0x1 nnn
  | .call nnn => layoutNNN 0x2 nnn
  | .seImm x nn => layoutXNN 0x3 x nn
  | .sneImm x nn => layoutXNN 0x4 x nn
  | .seReg x y => layoutXYN 0x5 x y 0x0
  | .ldImm x nn => layoutXNN 0x6 x nn
  | .addImm x nn => layoutXNN 0x7 x nn
  | .ldReg x y => layoutXYN 0x8 x y 0x0
  | .orReg x y => layoutXYN 0x8 x y 0x1
  | .andReg x y => layoutXYN 0x8 x y 0x2
  | .xorReg x y => layoutXYN 0x8 x y 0x3
  | .addReg x y => layoutXYN 0x8 x y 0x4
  | .subReg x y => layoutXYN 0x8 x y 0x5
  | .shr x y => layoutXYN 0x8 x y 0x6
  | .subnReg x y => layoutXYN 0x8 x y 0x7
  | .shl x y => layoutXYN 0x8 x y 0xE
  | .sneReg x y => layoutXYN 0x9 x y 0x0
  | .ldI nnn => layoutNNN 0xA nnn
  | .jpV0 nnn => layoutNNN 0xB nnn
  | .rnd x nn => layoutXNN 0xC x nn
  | .drw x y n => layoutXYN 0xD x y (BitVec.ofNat 4 n)
  | .skp x => layoutXNN 0xE x 0x9E
  | .sknp x => layoutXNN 0xE x 0xA1
  | .ldVxDT x => layoutXNN 0xF x 0x07
  | .ldVxK x => layoutXNN 0xF x 0x0A
  | .ldDTVx x => layoutXNN 0xF x 0x15
  | .ldSTVx x => layoutXNN 0xF x 0x18
  | .addIVx x => layoutXNN 0xF x 0x1E
  | .ldFVx x => layoutXNN 0xF x 0x29
  | .ldBVx x => layoutXNN 0xF x 0x33
  | .storeRegs x => layoutXNN 0xF x 0x55
  | .loadRegs x => layoutXNN 0xF x 0x65

/-- The bytes of an instruction in memory order, "most-significant byte first" (R70). -/
def encode (i : Instr) : List Byte := [hiByte (encodeWord i), loByte (encodeWord i)]

/-! ### The opcode map of R75 as data -/

/-- One row of R75: a word selects it when `w & mask = pattern`. -/
structure OpcodeRow where
  pattern : Word
  mask : Word
  deriving DecidableEq, Repr

/-- The row of R75 an instruction stands in. -/
def Instr.row : Instr → OpcodeRow
  | .nop => ⟨0x0000, 0xFFFF⟩
  | .cls => ⟨0x00E0, 0xFFFF⟩
  | .ret => ⟨0x00EE, 0xFFFF⟩
  | .jp _ => ⟨0x1000, 0xF000⟩
  | .call _ => ⟨0x2000, 0xF000⟩
  | .seImm _ _ => ⟨0x3000, 0xF000⟩
  | .sneImm _ _ => ⟨0x4000, 0xF000⟩
  | .seReg _ _ => ⟨0x5000, 0xF00F⟩
  | .ldImm _ _ => ⟨0x6000, 0xF000⟩
  | .addImm _ _ => ⟨0x7000, 0xF000⟩
  | .ldReg _ _ => ⟨0x8000, 0xF00F⟩
  | .orReg _ _ => ⟨0x8001, 0xF00F⟩
  | .andReg _ _ => ⟨0x8002, 0xF00F⟩
  | .xorReg _ _ => ⟨0x8003, 0xF00F⟩
  | .addReg _ _ => ⟨0x8004, 0xF00F⟩
  | .subReg _ _ => ⟨0x8005, 0xF00F⟩
  | .shr _ _ => ⟨0x8006, 0xF00F⟩
  | .subnReg _ _ => ⟨0x8007, 0xF00F⟩
  | .shl _ _ => ⟨0x800E, 0xF00F⟩
  | .sneReg _ _ => ⟨0x9000, 0xF00F⟩
  | .ldI _ => ⟨0xA000, 0xF000⟩
  | .jpV0 _ => ⟨0xB000, 0xF000⟩
  | .rnd _ _ => ⟨0xC000, 0xF000⟩
  | .drw _ _ _ => ⟨0xD000, 0xF000⟩
  | .skp _ => ⟨0xE09E, 0xF0FF⟩
  | .sknp _ => ⟨0xE0A1, 0xF0FF⟩
  | .ldVxDT _ => ⟨0xF007, 0xF0FF⟩
  | .ldVxK _ => ⟨0xF00A, 0xF0FF⟩
  | .ldDTVx _ => ⟨0xF015, 0xF0FF⟩
  | .ldSTVx _ => ⟨0xF018, 0xF0FF⟩
  | .addIVx _ => ⟨0xF01E, 0xF0FF⟩
  | .ldFVx _ => ⟨0xF029, 0xF0FF⟩
  | .ldBVx _ => ⟨0xF033, 0xF0FF⟩
  | .storeRegs _ => ⟨0xF055, 0xF0FF⟩
  | .loadRegs _ => ⟨0xF065, 0xF0FF⟩

/-- The 35 rows of R75, in the table's order. -/
def opcodeRows : List OpcodeRow :=
  [⟨0x0000, 0xFFFF⟩, ⟨0x00E0, 0xFFFF⟩, ⟨0x00EE, 0xFFFF⟩, ⟨0x1000, 0xF000⟩, ⟨0x2000, 0xF000⟩, ⟨0x3000, 0xF000⟩,
   ⟨0x4000, 0xF000⟩, ⟨0x5000, 0xF00F⟩, ⟨0x6000, 0xF000⟩, ⟨0x7000, 0xF000⟩] ++
  [⟨0x8000, 0xF00F⟩, ⟨0x8001, 0xF00F⟩, ⟨0x8002, 0xF00F⟩, ⟨0x8003, 0xF00F⟩, ⟨0x8004, 0xF00F⟩, ⟨0x8005, 0xF00F⟩,
   ⟨0x8006, 0xF00F⟩, ⟨0x8007, 0xF00F⟩, ⟨0x800E, 0xF00F⟩, ⟨0x9000, 0xF00F⟩] ++
  [⟨0xA000, 0xF000⟩, ⟨0xB000, 0xF000⟩, ⟨0xC000, 0xF000⟩, ⟨0xD000, 0xF000⟩, ⟨0xE09E, 0xF0FF⟩, ⟨0xE0A1, 0xF0FF⟩] ++
  [⟨0xF007, 0xF0FF⟩, ⟨0xF00A, 0xF0FF⟩, ⟨0xF015, 0xF0FF⟩, ⟨0xF018, 0xF0FF⟩, ⟨0xF01E, 0xF0FF⟩, ⟨0xF029, 0xF0FF⟩,
   ⟨0xF033, 0xF0FF⟩, ⟨0xF055, 0xF0FF⟩, ⟨0xF065, 0xF0FF⟩]

/-- The word `w` selects the row (R74: `w & mask = match`). -/
def OpcodeRow.selectedBy (r : OpcodeRow) (w : Word) : Bool := w &&& r.mask == r.pattern

/-! ### The host's reading of a table word -/

/-- The instruction the decoder reads from a word numbered as spec/opcode_table.json numbers it: `nbits` bits of `w`,
bit 0 the least significant bit of the one 16-bit word, laid out in memory high byte first (R70). -/
def decodeTableWord (nbits w : Nat) : Option Instr :=
  let word : Word := BitVec.ofNat 16 (w % 2 ^ nbits)
  match decode [hiByte word, loByte word] with
  | .ok (i, _) => some i
  | .error _ => none

end Sys2Proof
end

