-- ==== Sys2Proof/Config.lean ====
section
/-! DEFINITION. What is fixed for the machine (00_scope.md R5), the kinds of choice the source leaves open (R6), and the
free value of the random source. The choices themselves (`glyphRom`, `vfOrderArith`, `vfOrderShift`,
`keyIndexPolicy`) are in Machine/Params.lean. -/

namespace Sys2Proof.Config

/-- `MEM_SIZE` (R5). -/
abbrev memSize : Nat := 4096

/-- `PROGRAM_BASE` = `PC_RESET` (R5). -/
abbrev programBase : Nat := 0x200

/-- `MAX_PROGRAM` = 4096 - 0x200 (R5). -/
abbrev maxProgram : Nat := 3584

/-- `GLYPH_BYTES` (R5): the bytes of one glyph. -/
abbrev glyphBytes : Nat := 5

/-- `STACK_DEPTH` (R5). -/
abbrev stackDepth : Nat := 16

/-- `DISP_W` (R5). -/
abbrev dispW : Nat := 64

/-- `DISP_H` (R5). -/
abbrev dispH : Nat := 32

/-- Which of the two writes of a flag-setting instruction comes last, so which one `V[15]` holds when `x` = 15
(R131; the values of `VF_ORDER_ARITH` and `VF_ORDER_SHIFT`). -/
inductive VfOrder where
  | flagLast
  | resultLast
  deriving DecidableEq, Repr

/-- What `Ex9E` and `ExA1` do with a key index above 15 (R162; the values of `KEY_INDEX_POLICY`). -/
inductive KeyIndexPolicy where
  | fault
  | mask4
  | released
  deriving DecidableEq, Repr

/-- THE FREE VALUE of the random source (41_load_alu.md R133, D12; log entry 4): the byte number `k` that the outside
supplies when none was injected. It has no body, so nothing can be proved of it. -/
opaque freeRnd : Nat → Byte

end Sys2Proof.Config
end

