-- ==== Sys2Proof/Machine/Params.lean ====
section
/-! DEFINITION. The open parameters of 00_scope.md R6 at the values the spec decides or offers as default. -/

namespace Sys2Proof.Machine

/-- The reset image of glyph digits 0 to 7, five bytes each, top row first (R34). PRESUMED, log entry 3. -/
def glyphsLow : List Byte :=
  [0xF0, 0x90, 0x90, 0x90, 0xF0] ++ [0x20, 0x60, 0x20, 0x20, 0x70] ++
  [0xF0, 0x10, 0xF0, 0x80, 0xF0] ++ [0xF0, 0x10, 0xF0, 0x10, 0xF0] ++
  [0x90, 0x90, 0xF0, 0x10, 0x10] ++ [0xF0, 0x80, 0xF0, 0x10, 0xF0] ++
  [0xF0, 0x80, 0xF0, 0x90, 0xF0] ++ [0xF0, 0x10, 0x20, 0x40, 0x40]

/-- The reset image of glyph digits 8 to F (R34). PRESUMED, log entry 3. -/
def glyphsHigh : List Byte :=
  [0xF0, 0x90, 0xF0, 0x90, 0xF0] ++ [0xF0, 0x90, 0xF0, 0x10, 0xF0] ++
  [0xF0, 0x90, 0xF0, 0x90, 0x90] ++ [0xE0, 0x90, 0xE0, 0x90, 0xE0] ++
  [0xF0, 0x80, 0x80, 0x80, 0xF0] ++ [0xE0, 0x90, 0x90, 0x90, 0xE0] ++
  [0xF0, 0x80, 0xF0, 0x80, 0xF0] ++ [0xF0, 0x80, 0xF0, 0x80, 0x80]

/-- `GLYPH_ROM`, the 80 bytes of the glyph region after reset (R34, D11). PRESUMED (the conventional table, in no
source), log entry 3. -/
def glyphRom : List Byte := glyphsLow ++ glyphsHigh

/-- `VF_ORDER_ARITH`: the last write of `8xy4`, `8xy5`, `8xy7` (R131, D5). DESIGN CHOICE (the spec's), log entry 5. -/
def vfOrderArith : Config.VfOrder := .flagLast

/-- `VF_ORDER_SHIFT`: the last write of `8xy6`, `8xyE` (R131, D6). DESIGN CHOICE (the spec's), log entry 6. -/
def vfOrderShift : Config.VfOrder := .resultLast

/-- `KEY_INDEX_POLICY` (R162, D8). DESIGN CHOICE (the spec's), log entry 7. -/
def keyIndexPolicy : Config.KeyIndexPolicy := .fault

end Sys2Proof.Machine
end

