-- ==== Sys2Proof/Machine/State.lean ====
section
/-! DEFINITION. The state of the core (10_state.md R20 to R36) as plain data, the reasons a step can stop, and the state
after reset (R37). The last four fields are the model's own: the outputs and the input of the operation `step`. -/

namespace Sys2Proof.Machine

/-- The six error kinds (60_exceptions.md R200), reported to the host by the operation that met them. An error is no stop
of the machine: the operation ends and the core accepts every later operation (R210; log entry 1). -/
inductive ErrorKind where
  /-- Raised by `load` (R201). -/
  | memoryOverflow
  /-- Raised by `setKey`, and by `Ex9E` and `ExA1` by the spec's decision D8 (R202). -/
  | indexOutOfRange
  /-- Raised by `2nnn` (R203). -/
  | stackOverflow
  /-- Raised by `00EE` (R203). -/
  | stackUnderflow
  /-- Raised by the fetch of any step and by `Dxyn`, `Fx33`, `Fx55`, `Fx65` (R204). -/
  | addressOutOfRange
  /-- Raised by the decode of any step (R205). -/
  | unsupportedInstruction
  deriving DecidableEq, Repr

/-- What the trace port emits (R220): the instruction's address `PC0` and the raw word. -/
structure TraceRecord where
  addr : Word
  word : Word
  deriving DecidableEq, Repr

/-- Memory (20_memory.md R50): the bytes that differ from the reset contents, addresses strictly rising. What an unlisted
address reads as is `unlisted` in Machine/Ops.lean. -/
abbrev Memory := List Host.Cell

/-- The display (R32): 32 rows of 64 pixels, true is on. -/
abbrev Display := Vector (Vector Bool 64) 32

/-- The state of the core (R20 to R35), and the ports of `step`. -/
structure State where
  /-- `V[0]` .. `V[15]` (R20). -/
  v : Vector Byte 16
  /-- `I` (R24). -/
  i : Word
  /-- `PC` (R25). -/
  pc : Word
  /-- `stack[0]` .. `stack[15]` (R28). -/
  stack : Vector Word 16
  /-- `SP`, the number of return addresses held (R28). -/
  sp : Fin 17
  /-- `DT` (R30). -/
  dt : Byte
  /-- `ST` (R30). -/
  st : Byte
  /-- `Key[0]` .. `Key[15]` (R31). -/
  key : Vector Bool 16
  /-- `Px` (R32). -/
  px : Display
  /-- `mem` (R33). -/
  mem : Memory
  /-- `DBG` (R35). -/
  dbg : Bool
  /-- Output: what the latest `step` returned, `none` for `Ok` (R175, R207). DESIGN CHOICE, log entry 2. -/
  report : Option ErrorKind
  /-- Output: the record the latest `step` emitted, if any (R220). DESIGN CHOICE, log entry 2. -/
  trace : Option TraceRecord
  /-- Input: random bytes injected from outside and not yet consumed (R133). DESIGN CHOICE, log entry 4. -/
  rndIn : List Byte
  /-- How many random bytes have been consumed, the index of the free value. DESIGN CHOICE, log entry 4. -/
  rndDrawn : Nat
  deriving DecidableEq, Repr

/-- Why the machine stops. NOTHING STOPS IT: "every operation is defined in every state" (93_implementation_defined.md
section 1), and an error is reported by a next state (R207 to R210; log entry 1). So no constructor exists, nobody raises
one, and no difference, safe or unsafe, comes from here. -/
inductive Fault : Type
  deriving DecidableEq, Repr

/-- Why the model has no meaning for an instruction. -/
inductive Refusal where
  /-- Raised only by an arm of `exec` whose instruction has no meaning yet (safe); no arm is left so. -/
  | notModelled (mnemonic : String)
  deriving DecidableEq, Repr

/-- The outcome of a step of this machine. -/
abbrev Out := Host.Outcome State Fault Refusal

/-- The display with every pixel off (R32, R151). -/
def blankDisplay : Display := Vector.replicate 32 (Vector.replicate 64 false)

/-- The state after `construct()` and after `reset()` (R37, R230 to R232): memory lists nothing, so it reads as the reset
contents. The four ports are at rest (log entries 2 and 4). -/
def State.reset : State where
  v := Vector.replicate 16 0
  i := 0
  pc := 0x200
  stack := Vector.replicate 16 0
  sp := 0
  dt := 0
  st := 0
  key := Vector.replicate 16 false
  px := blankDisplay
  mem := []
  dbg := false
  report := none
  trace := none
  rndIn := []
  rndDrawn := 0

end Sys2Proof.Machine
end

