-- ==== Sys2Proof/Machine/Ops.lean ====
section
/-! DEFINITION. The named operations over registers, memory, the call stack, the display, the keys and the random source,
and the one way an error is raised. Every meaning is written over these. -/

namespace Sys2Proof.Machine

/-! ### Registers (R8, R20) -/

/-- `V[r]`. -/
def State.reg (s : State) (r : RegIdx) : Byte := s.v[r]

/-- `V[r] <- b`. No register is hardwired (R20). -/
def State.setReg (s : State) (r : RegIdx) (b : Byte) : State := { s with v := s.v.set r b }

/-- `PC <- t`. -/
def State.setPc (s : State) (t : Word) : State := { s with pc := t }

/-- `I <- t`. -/
def State.setI (s : State) (t : Word) : State := { s with i := t }

/-! ### Memory (20_memory.md) -/

/-- What an unlisted address reads as: the reset contents of R37, the glyph table below 0x050 and zero above. -/
def unlisted (a : Nat) : Byte := if a < 80 then glyphRom.getD a 0 else 0

/-- The byte at address `a` (R52). -/
def Memory.read : Memory → Nat → Byte
  | [], a => unlisted a
  | (k, c) :: m, a => if a = k then c else Memory.read m a

/-- `mem[a] <- b` (R52), keeping the canonical form: writing what an unlisted address reads as removes the entry. -/
def Memory.write : Memory → Nat → Byte → Memory
  | [], a, b => if b = unlisted a then [] else [(a, b)]
  | (k, c) :: m, a, b =>
    if a < k then (if b = unlisted a then (k, c) :: m else (a, b) :: (k, c) :: m)
    else if a = k then (if b = unlisted a then m else (a, b) :: m)
    else (k, c) :: Memory.write m a b

/-- Every entry lies at `lo` or above, below 4096, addresses strictly rise, and no entry equals what its address reads as
when unlisted. -/
def Memory.wfFrom : Nat → Memory → Bool
  | _, [] => true
  | lo, (k, c) :: m => decide (lo ≤ k) && decide (k < Config.memSize) && decide (c ≠ unlisted k) && Memory.wfFrom (k + 1) m

/-- The canonical form of memory. -/
def Memory.wf (m : Memory) : Bool := Memory.wfFrom 0 m

/-- The range check of every access (R53, R54): `k` bytes from `base`, as plain integers, none above 0xFFF; an access of no
byte is always legal. -/
def inRange (base k : Nat) : Bool := k == 0 || decide (base + k ≤ Config.memSize)

/-- The `k` bytes from `a` upward. -/
def Memory.readRun (m : Memory) : Nat → Nat → List Byte
  | _, 0 => []
  | a, k + 1 => m.read a :: Memory.readRun m (a + 1) k

/-- The bytes written from `a` upward, in ascending order. -/
def Memory.writeRun : Memory → Nat → List Byte → Memory
  | m, _, [] => m
  | m, a, b :: bs => Memory.writeRun (m.write a b) (a + 1) bs

/-- A checked read of `k` bytes: `none` is `AddressOutOfRange`, found before any byte is read (R53). -/
def Memory.readBytes (m : Memory) (base k : Nat) : Option (List Byte) :=
  if inRange base k then some (m.readRun base k) else none

/-- A checked write: `none` is `AddressOutOfRange`, found before any byte is written (R53). -/
def Memory.writeBytes (m : Memory) (base : Nat) (bs : List Byte) : Option Memory :=
  if inRange base bs.length then some (m.writeRun base bs) else none

/-! ### Taking an error (R207 to R210) -/

/-- `raise E`: the one way an error is taken. The operation ends at once with the kind reported to the host. Nothing is
saved, no vector is entered, no mode changes (R207); `PC` stays where the fetch left it (R208) and nothing else changes
(R209), because every check comes before the first write. There is no return from it: the core keeps no error state and
the next operation starts fresh (R210). -/
def raise (e : ErrorKind) (s : State) : Out := .next { s with report := some e }

/-- The number of an error kind (R200, D17); no rule depends on it (log entry 21). -/
def ErrorKind.code : ErrorKind → Nat
  | .memoryOverflow => 1
  | .indexOutOfRange => 2
  | .stackOverflow => 3
  | .stackUnderflow => 4
  | .addressOutOfRange => 5
  | .unsupportedInstruction => 6

/-! ### Fetch and trace (R54, R100, R220) -/

/-- The word at `PC`, big-endian; `none` when either byte lies outside memory (R54). -/
def State.fetchWord (s : State) : Option Word :=
  match s.mem.readBytes s.pc.toNat 2 with
  | some [hi, lo] => some (wordOfBytes hi lo)
  | _ => none

/-- The outputs of the latest step withdrawn, before this step sets its own. -/
def State.quietOutputs (s : State) : State := { s with report := none, trace := none }

/-- The state in which the semantics of a word fetched at `PC0` start (R100): `PC` = `PC0 + 2`, the trace record
emitted when `DBG` = 1 (R220), nothing else changed. -/
def State.fetched (s : State) (w : Word) : State :=
  { s with pc := s.pc + 2, report := none, trace := if s.dbg then some ⟨s.pc, w⟩ else none }

/-! ### Program counter (R110) -/

/-- Skip: 2 more is added to `PC`. -/
def State.skip (s : State) : State := s.setPc (s.pc + 2)

/-- Skip when the condition holds. -/
def State.skipIf (s : State) (c : Bool) : State := if c then s.skip else s

/-! ### Call stack (R29) -/

/-- `Push(a)`; `none` when the stack is full. -/
def State.push (s : State) (a : Word) : Option State :=
  if h : s.sp.val < 16 then
    some { s with stack := s.stack.set s.sp.val a, sp := ⟨s.sp.val + 1, by omega⟩ }
  else none

/-- `Pop()`; `none` when the stack is empty. The popped slot keeps its value. -/
def State.pop (s : State) : Option (Word × State) :=
  if h : 0 < s.sp.val then
    some (s.stack[s.sp.val - 1]'(by omega), { s with sp := ⟨s.sp.val - 1, by omega⟩ })
  else none

/-! ### Display (R32, R152) -/

/-- `Px[x][y]`. -/
def Display.get (d : Display) (x : Fin 64) (y : Fin 32) : Bool := d[y][x]

/-- `Px[x][y] <- not Px[x][y]`. -/
def Display.toggle (d : Display) (x : Fin 64) (y : Fin 32) : Display := d.set y (d[y].set x (!d[y][x]))

/-- A column or row number reduced to the display, "coordinates wrap around screen edges" (R152). -/
def column (n : Nat) : Fin 64 := Fin.ofNat 64 n

/-- The display row of a row number. -/
def row (n : Nat) : Fin 32 := Fin.ofNat 32 n

/-- One sprite bit: if set, the pixel's prior value is gathered into the collision and the pixel toggled (R152). -/
def drawBit (bit : Bool) (x y : Nat) (p : Display × Bool) : Display × Bool :=
  if bit then (p.1.toggle (column x) (row y), p.2 || p.1.get (column x) (row y)) else p

/-- The columns of one sprite row still to draw, `k` of them; column `8 - k` is bit `k - 1`, so bit 7 is leftmost (R152). -/
def drawColumns (b : Byte) (x0 y : Nat) : Nat → Display × Bool → Display × Bool
  | 0, p => p
  | k + 1, p => drawColumns b x0 y k (drawBit (b.getLsbD k) (x0 + (7 - k)) y p)

/-- The sprite rows from row number `y` down, in ascending order (R152). -/
def drawRows (x0 : Nat) : Nat → List Byte → Display × Bool → Display × Bool
  | _, [], p => p
  | y, b :: bs, p => drawRows x0 (y + 1) bs (drawColumns b x0 y 8 p)

/-! ### Keys (R31, R162, R164) -/

/-- The state of the key a register value names; `none` is `IndexOutOfRange` (R162). -/
def lookupKey (policy : Config.KeyIndexPolicy) (key : Vector Bool 16) (k : Byte) : Option Bool :=
  if h : k.toNat < 16 then some key[k.toNat]
  else
    match policy with
    | .fault => none
    | .mask4 => some (key[k.toNat % 16]'(Nat.mod_lt _ (by decide)))
    | .released => some false

/-- The lowest index of a key that is down (R164). -/
def firstKeyDown (key : Vector Bool 16) : Option Nat := key.toList.findIdx? (· == true)

/-! ### Random source (R133) -/

/-- The random byte of this step and the state with it consumed: the next injected byte, else the free value (log
entry 4). -/
def State.drawRnd (s : State) : Byte × State :=
  match s.rndIn with
  | b :: bs => (b, { s with rndIn := bs, rndDrawn := s.rndDrawn + 1 })
  | [] => (Config.freeRnd s.rndDrawn, { s with rndDrawn := s.rndDrawn + 1 })

end Sys2Proof.Machine
end

