-- ==== Sys2Proof/Machine/Flags.lean ====
section
/-! DEFINITION. The flag values of the six instructions that write `V[15]` as a flag (10_state.md R23), and the two writes
of an instruction that has a result and a flag (41_load_alu.md R131). -/

namespace Sys2Proof.Machine

/-- "A flag write always stores 0x00 or 0x01" (R120). -/
def flagByte (f : Bool) : Byte := if f then 1 else 0

/-- Carry: 1 when the sum exceeds 255 (R127). -/
def carryFlag (a b : Byte) : Bool := decide (255 < a.toNat + b.toNat)

/-- Not-borrow of `minuend - subtrahend`: 1 when the minuend is not below the subtrahend (R128, R130). -/
def notBorrowFlag (minuend subtrahend : Byte) : Bool := decide (subtrahend.toNat ≤ minuend.toNat)

/-- The low bit before the right shift (R129). -/
def shiftRightFlag (a : Byte) : Bool := a.getLsbD 0

/-- The high bit before the left shift (R132). -/
def shiftLeftFlag (a : Byte) : Bool := a.getLsbD 7

/-- `F <- f` (R8). -/
def State.setFlag (s : State) (f : Bool) : State := s.setReg flagReg (flagByte f)

/-- The result to `V[x]` and the flag to `V[15]`, both computed before, in the given order (R131). -/
def State.setResultAndFlag (order : Config.VfOrder) (x : RegIdx) (result : Byte) (f : Bool) (s : State) : State :=
  match order with
  | .flagLast => (s.setReg x result).setFlag f
  | .resultLast => (s.setFlag f).setReg x result

end Sys2Proof.Machine
end

