-- ==== Sys2Proof/Machine/Operands.lean ====
section
/-! DEFINITION. Operand forms (30_encoding.md R73, 42_index_memory.md R146): zero-extended immediates, runs of registers,
and accesses of memory based on `I`. -/

namespace Sys2Proof.Machine

/-- `zext_16(nnn)` (R73). -/
def zextAddr (nnn : Addr12) : Word := nnn.setWidth 16

/-- `zext_16(b)` of a register value. -/
def zextByte (b : Byte) : Word := b.setWidth 16

/-- `V[0]` to `V[x]` inclusive, ascending (R144). -/
def State.regsUpTo (s : State) (x : RegIdx) : List Byte := s.v.toList.take (x.val + 1)

/-- The registers from number `r` upward take the listed bytes, in ascending order (R145). A byte past `V[15]` has no
register; no access is that long. -/
def State.setRegsFrom (s : State) : Nat → List Byte → State
  | _, [] => s
  | r, b :: bs => State.setRegsFrom (if h : r < 16 then s.setReg ⟨r, h⟩ b else s) (r + 1) bs

/-- The `k` data bytes based on `I` (R146, R53); `none` is `AddressOutOfRange`. -/
def State.readData (s : State) (k : Nat) : Option (List Byte) := s.mem.readBytes s.i.toNat k

/-- The bytes stored based on `I` (R146, R53); `none` is `AddressOutOfRange`. `I` does not change. -/
def State.writeData (s : State) (bs : List Byte) : Option State :=
  match s.mem.writeBytes s.i.toNat bs with
  | some m => some { s with mem := m }
  | none => none

/-- The three decimal digits of a byte, hundreds first, one whole byte each (R143). -/
def bcdDigits (b : Byte) : List Byte :=
  [BitVec.ofNat 8 (b.toNat / 100), BitVec.ofNat 8 (b.toNat / 10 % 10), BitVec.ofNat 8 (b.toNat % 10)]

/-- The glyph address of a register value: the whole byte times 5 (R142). -/
def glyphAddress (b : Byte) : Word := zextByte b * 5

end Sys2Proof.Machine
end

