-- ==== Sys2Proof/Machine/Alu.lean ====
section
/-! DEFINITION. The meanings of 41_load_alu.md: `6xnn 7xnn 8xy0` to `8xy7`, `8xyE`, `Cxnn`. None changes `PC` further and none
can raise an error. -/

namespace Sys2Proof.Machine

/-- `6xnn`: `V[x] <- nn` (R121). -/
def execLdImm (x : RegIdx) (nn : Byte) (s : State) : Out := .next (s.setReg x nn)

/-- `7xnn`: `V[x] <- V[x] + nn` modulo 256, no flag (R122). -/
def execAddImm (x : RegIdx) (nn : Byte) (s : State) : Out := .next (s.setReg x (s.reg x + nn))

/-- `8xy0`: `V[x] <- V[y]` (R123). -/
def execLdReg (x y : RegIdx) (s : State) : Out := .next (s.setReg x (s.reg y))

/-- `8xy1`: `V[x] <- V[x] | V[y]` (R124). -/
def execOrReg (x y : RegIdx) (s : State) : Out := .next (s.setReg x (s.reg x ||| s.reg y))

/-- `8xy2`: `V[x] <- V[x] & V[y]` (R125). -/
def execAndReg (x y : RegIdx) (s : State) : Out := .next (s.setReg x (s.reg x &&& s.reg y))

/-- `8xy3`: `V[x] <- V[x] ^ V[y]` (R126). -/
def execXorReg (x y : RegIdx) (s : State) : Out := .next (s.setReg x (s.reg x ^^^ s.reg y))

/-- `8xy4`: sum modulo 256 and carry (R127, R131). -/
def execAddReg (x y : RegIdx) (s : State) : Out :=
  .next (s.setResultAndFlag vfOrderArith x (s.reg x + s.reg y) (carryFlag (s.reg x) (s.reg y)))

/-- `8xy5`: `V[x] - V[y]` modulo 256 and not-borrow (R128, R131). -/
def execSubReg (x y : RegIdx) (s : State) : Out :=
  .next (s.setResultAndFlag vfOrderArith x (s.reg x - s.reg y) (notBorrowFlag (s.reg x) (s.reg y)))

/-- `8xy6`: `V[x] >> 1` and the bit shifted out; `V[y]` is never read (R129, R131). -/
def execShr (x _y : RegIdx) (s : State) : Out :=
  .next (s.setResultAndFlag vfOrderShift x (s.reg x >>> 1) (shiftRightFlag (s.reg x)))

/-- `8xy7`: `V[y] - V[x]` modulo 256 and not-borrow (R130, R131). -/
def execSubnReg (x y : RegIdx) (s : State) : Out :=
  .next (s.setResultAndFlag vfOrderArith x (s.reg y - s.reg x) (notBorrowFlag (s.reg y) (s.reg x)))

/-- `8xyE`: `V[x] << 1` modulo 256 and the bit shifted out; `V[y]` is never read (R132, R131). -/
def execShl (x _y : RegIdx) (s : State) : Out :=
  .next (s.setResultAndFlag vfOrderShift x (s.reg x <<< 1) (shiftLeftFlag (s.reg x)))

/-- `Cxnn`: `V[x] <- rnd & nn`, one random byte consumed (R133). -/
def execRnd (x : RegIdx) (nn : Byte) (s : State) : Out :=
  .next (s.drawRnd.2.setReg x (s.drawRnd.1 &&& nn))

end Sys2Proof.Machine
end

