-- ==== Sys2Proof/Machine/Control.lean ====
section
/-! DEFINITION. The meanings of 40_control_flow.md: `0000 00EE 1nnn 2nnn Bnnn 3xnn 4xnn 5xy0 9xy0`. Each runs on the
state after the fetch, where `PC` = `PC0 + 2` (R100). -/

namespace Sys2Proof.Machine

/-- `0000`: no effect (R101). -/
def execNop (s : State) : Out := .next s

/-- `00EE`: `PC <- Pop()` (R102). -/
def execRet (s : State) : Out :=
  match s.pop with
  | some (a, s') => .next (s'.setPc a)
  | none => raise .stackUnderflow s

/-- `1nnn`: `PC <- nnn` (R103). -/
def execJp (nnn : Addr12) (s : State) : Out := .next (s.setPc (zextAddr nnn))

/-- `2nnn`: `Push(PC)`, then `PC <- nnn` (R104). -/
def execCall (nnn : Addr12) (s : State) : Out :=
  match s.push s.pc with
  | some s' => .next (s'.setPc (zextAddr nnn))
  | none => raise .stackOverflow s

/-- `Bnnn`: `PC <- V[0] + nnn`, not reduced to 12 bits (R105). -/
def execJpV0 (nnn : Addr12) (s : State) : Out := .next (s.setPc (zextByte (s.reg 0) + zextAddr nnn))

/-- `3xnn`: skip if `V[x] = nn` (R106). -/
def execSeImm (x : RegIdx) (nn : Byte) (s : State) : Out := .next (s.skipIf (s.reg x == nn))

/-- `4xnn`: skip if `V[x] ≠ nn` (R107). -/
def execSneImm (x : RegIdx) (nn : Byte) (s : State) : Out := .next (s.skipIf (s.reg x != nn))

/-- `5xy0`: skip if `V[x] = V[y]` (R108). -/
def execSeReg (x y : RegIdx) (s : State) : Out := .next (s.skipIf (s.reg x == s.reg y))

/-- `9xy0`: skip if `V[x] ≠ V[y]` (R109). -/
def execSneReg (x y : RegIdx) (s : State) : Out := .next (s.skipIf (s.reg x != s.reg y))

end Sys2Proof.Machine
end

