-- ==== Sys2Proof/Machine/IndexMem.lean ====
section
/-! DEFINITION. The meanings of 42_index_memory.md: `Annn Fx1E Fx29 Fx33 Fx55 Fx65`. -/

namespace Sys2Proof.Machine

/-- `Annn`: `I <- nnn` (R140). -/
def execLdI (nnn : Addr12) (s : State) : Out := .next (s.setI (zextAddr nnn))

/-- `Fx1E`: `I <- I + V[x]` modulo 65536, no flag (R141). -/
def execAddIVx (x : RegIdx) (s : State) : Out := .next (s.setI (s.i + zextByte (s.reg x)))

/-- `Fx29`: `I <- V[x] * 5` (R142). -/
def execLdFVx (x : RegIdx) (s : State) : Out := .next (s.setI (glyphAddress (s.reg x)))

/-- `Fx33`: the decimal digits of `V[x]` at `I`, `I+1`, `I+2` (R143). -/
def execLdBVx (x : RegIdx) (s : State) : Out :=
  match s.writeData (bcdDigits (s.reg x)) with
  | some s' => .next s'
  | none => raise .addressOutOfRange s

/-- `Fx55`: `V[0]` to `V[x]` at `I` upward (R144). -/
def execStoreRegs (x : RegIdx) (s : State) : Out :=
  match s.writeData (s.regsUpTo x) with
  | some s' => .next s'
  | none => raise .addressOutOfRange s

/-- `Fx65`: memory from `I` upward into `V[0]` to `V[x]` (R145). -/
def execLoadRegs (x : RegIdx) (s : State) : Out :=
  match s.readData (x.val + 1) with
  | some bs => .next (s.setRegsFrom 0 bs)
  | none => raise .addressOutOfRange s

end Sys2Proof.Machine
end

