-- ==== Sys2Proof/Machine/Keypad.lean ====
section
/-! DEFINITION. The meanings of 44_keypad_timers.md: `Ex9E ExA1 Fx07 Fx0A Fx15 Fx18`. -/

namespace Sys2Proof.Machine

/-- `Ex9E`: skip if key `V[x]` is pressed (R160, R162). -/
def execSkp (x : RegIdx) (s : State) : Out :=
  match lookupKey keyIndexPolicy s.key (s.reg x) with
  | some down => .next (s.skipIf down)
  | none => raise .indexOutOfRange s

/-- `ExA1`: skip if key `V[x]` is released (R161, R162). -/
def execSknp (x : RegIdx) (s : State) : Out :=
  match lookupKey keyIndexPolicy s.key (s.reg x) with
  | some down => .next (s.skipIf (!down))
  | none => raise .indexOutOfRange s

/-- `Fx07`: `V[x] <- DT` (R163). -/
def execLdVxDT (x : RegIdx) (s : State) : Out := .next (s.setReg x s.dt)

/-- `Fx0A`: `V[x] <- DT`, then the lowest key down replaces it; with no key down `PC` goes back to the instruction
itself (R164, preserved literally; log entry 17). -/
def execLdVxK (x : RegIdx) (s : State) : Out :=
  match firstKeyDown s.key with
  | some k => .next ((s.setReg x s.dt).setReg x (BitVec.ofNat 8 k))
  | none => .next ((s.setReg x s.dt).setPc (s.pc - 2))

/-- `Fx15`: `DT <- V[x]` (R165). -/
def execLdDTVx (x : RegIdx) (s : State) : Out := .next { s with dt := s.reg x }

/-- `Fx18`: `ST <- V[x]` (R166). -/
def execLdSTVx (x : RegIdx) (s : State) : Out := .next { s with st := s.reg x }

end Sys2Proof.Machine
end

