-- ==== Sys2Proof/Machine/Video.lean ====
section
/-! DEFINITION. The meanings of 43_display.md: `00E0 Dxyn`. -/

namespace Sys2Proof.Machine

/-- `00E0`: every pixel off (R151). -/
def execCls (s : State) : Out := .next { s with px := blankDisplay }

/-- `Dxyn`: `n` sprite rows from `I` drawn by exclusive or at `(V[x], V[y])`, `V[15]` the collision (R152). `n` = 0 reads
nothing and writes `V[15] <- 0` (case 4; log entry 8). -/
def execDrw (x y : RegIdx) (n : Nat) (s : State) : Out :=
  match s.readData n with
  | some rows =>
    let drawn := drawRows (s.reg x).toNat (s.reg y).toNat rows (s.px, false)
    .next ({ s with px := drawn.1 }.setFlag drawn.2)
  | none => raise .addressOutOfRange s

end Sys2Proof.Machine
end

