-- ==== Sys2Proof/Machine/Step.lean ====
section
/-! DEFINITION. One `step()` (40_control_flow.md R100, 45_host_operations.md R175): fetch, decode, execute one
instruction; and the host's placing of one instruction where the step fetches. -/

namespace Sys2Proof.Machine

/-- One fetch-decode-execute cycle (R100). A fetch error leaves `PC` (R54); a word of no row is an unsupported
instruction after the fetch advanced `PC` (R205). -/
def step (s : State) : Host.Outcome State Fault Refusal :=
  match s.fetchWord with
  | none => raise .addressOutOfRange s.quietOutputs
  | some w =>
    match decodeWord w with
    | .ok i => exec i (s.fetched w)
    | .error _ => raise .unsupportedInstruction (s.fetched w)

/-- `s` with the instruction word numbered as spec/opcode_table.json numbers it stored, high byte first (R70), where
`step` fetches next: at `PC`, or at 0x200 with `PC` set there when `PC` can fetch nothing (log entry 11). -/
def State.withFetchWord (s : State) (nbits w : Nat) : State :=
  let word : Word := BitVec.ofNat 16 (w % 2 ^ nbits)
  let at_ : Word := if s.pc.toNat ≤ 0xFFE then s.pc else 0x200
  { s with pc := at_, mem := s.mem.writeRun at_.toNat [hiByte word, loByte word] }

end Sys2Proof.Machine
end

