-- ==== Sys2Proof/Machine/HostOps.lean ====
section
/-! DEFINITION. The operations on the core (45_host_operations.md R170 to R184): "the other half of the step relation". The
host and the timer engine change state only through these, in any order (R170, D15; log entry 9). -/

namespace Sys2Proof.Machine

/-- The state after `construct()` or `reset()` (R172, R173): the constant state of R37. The random source stands outside
the core (R36, R133), so what was injected and the count of bytes consumed stay (log entry 16). -/
def State.afterReset (s : State) : State := { State.reset with rndIn := s.rndIn, rndDrawn := s.rndDrawn }

/-- `load(bytes)`: checked before any copy, then the bytes verbatim from 0x200 and nothing else (R174). -/
def State.load (bytes : List Byte) (s : State) : Except ErrorKind State :=
  if Config.programBase + bytes.length ≤ Config.memSize then
    .ok { s with mem := s.mem.writeRun Config.programBase bytes }
  else .error .memoryOverflow

/-- One timer after a tick: one less, never below zero (R178). -/
def tickDown (t : Byte) : Byte := if t = 0 then 0 else t - 1

/-- `tickTimers()` (R178). -/
def State.tickTimers (s : State) : State := { s with dt := tickDown s.dt, st := tickDown s.st }

/-- `setKey(index, pressed)` (R179). -/
def State.setKey (index : Int) (pressed : Bool) (s : State) : Except ErrorKind State :=
  if h : 0 ≤ index ∧ index ≤ 15 then
    .ok { s with key := s.key.set index.toNat pressed (by omega) }
  else .error .indexOutOfRange

/-- `getDisplay()`: the 2048 pixels in row-major order (R180, R32). -/
def State.getDisplay (s : State) : List Bool := s.px.toList.flatMap Vector.toList

/-- `isBeeping()`: `ST > 0` (R181). -/
def State.isBeeping (s : State) : Bool := decide (0 < s.st.toNat)

/-- `setTrace(on)` (R183). -/
def State.setTrace (on : Bool) (s : State) : State := { s with dbg := on }

/-- `step()` with its input `rnd` (R175): the byte is offered to this step alone, and dropped when the instruction is
not `Cxnn` (R133). What was injected otherwise stays. -/
def stepWith (rnd : Byte) (s : State) : Out :=
  match step { s with rndIn := [rnd] } with
  | .next t => .next { t with rndIn := s.rndIn }
  | .fault r => .fault r
  | .refused r => .refused r

/-- The moves of the host (R171), and no others (R184). -/
inductive HostOp where
  | construct
  | reset
  | load (bytes : List Byte)
  | step (rnd : Byte)
  | tickTimers
  | setKey (index : Int) (pressed : Bool)
  | getDisplay
  | isBeeping
  | setTrace (on : Bool)
  deriving DecidableEq, Repr

/-- What an operation answers (R171): nothing, `Ok` or an error kind, a step's result with its trace record, the grid, or
the beep flag. -/
inductive Reply where
  | done
  | result (e : Option ErrorKind)
  | stepped (e : Option ErrorKind) (trace : Option TraceRecord)
  | grid (pixels : List Bool)
  | flag (on : Bool)
  deriving DecidableEq, Repr

/-- The reply of an operation that can fail without changing state (R174, R179, D24). -/
def settleResult (s : State) : Except ErrorKind State → Host.Outcome (State × Reply) Fault Refusal
  | .ok t => .next (t, .result none)
  | .error e => .next (s, .result (some e))

/-- One operation on the core (R171). -/
def HostOp.perform (op : HostOp) (s : State) : Host.Outcome (State × Reply) Fault Refusal :=
  match op with
  | .construct => .next (s.afterReset, .done)
  | .reset => .next (s.afterReset, .done)
  | .load bytes => settleResult s (s.load bytes)
  | .step rnd =>
    match stepWith rnd s with
    | .next t => .next (t, .stepped t.report t.trace)
    | .fault r => .fault r
    | .refused r => .refused r
  | .tickTimers => .next (s.tickTimers, .done)
  | .setKey index pressed => settleResult s (s.setKey index pressed)
  | .getDisplay => .next (s, .grid s.getDisplay)
  | .isBeeping => .next (s, .flag s.isBeeping)
  | .setTrace on => .next (s.setTrace on, .done)

end Sys2Proof.Machine
end

