-- ==== Sys2Proof/Safety.lean ====
section
/-! DEFINITION. The terms the claims are stated in: what a part of the state is and when it is unchanged (frames), which
parts an instruction may write, the invariant of the machine, the reachable states, and the two ends of a run. -/

namespace Sys2Proof.Machine

/-! ### Frames -/

/-- The separately observable parts of the state (R20 to R35) and the two kinds of port of the model. -/
inductive Part where
  | reg (r : RegIdx)
  | addr
  | pc
  | stack
  | delay
  | sound
  | keys
  | display
  | memory
  | debug
  /-- `report` and `trace`. -/
  | outputs
  /-- `rndIn` and `rndDrawn`. -/
  | random
  deriving DecidableEq, Repr

/-- The part reads the same in both states; memory through the read of one byte, at every address. -/
def Part.same (p : Part) (s t : State) : Prop :=
  match p with
  | .reg r => t.reg r = s.reg r
  | .addr => t.i = s.i
  | .pc => t.pc = s.pc
  | .stack => t.stack = s.stack ∧ t.sp = s.sp
  | .delay => t.dt = s.dt
  | .sound => t.st = s.st
  | .keys => t.key = s.key
  | .display => t.px = s.px
  | .memory => ∀ a : Nat, t.mem.read a = s.mem.read a
  | .debug => t.dbg = s.dbg
  | .outputs => t.report = s.report ∧ t.trace = s.trace
  | .random => t.rndIn = s.rndIn ∧ t.rndDrawn = s.rndDrawn

/-- Every part but the listed ones is unchanged from `s` to `t`. -/
def Frame (changed : List Part) (s t : State) : Prop := ∀ p : Part, p ∉ changed → p.same s t

/-- Every byte of memory outside the `k` bytes from `base` reads as before. -/
def MemorySameOutside (base k : Nat) (s t : State) : Prop :=
  ∀ a : Nat, ¬ (base ≤ a ∧ a < base + k) → t.mem.read a = s.mem.read a

/-- `V[0]` to `V[x]` as parts. -/
def regParts (x : RegIdx) : List Part := ((List.finRange 16).filter (· ≤ x)).map Part.reg

/-- The parts an instruction may write after the fetch: the writers' lists of 10_state.md R21, R23, R24, R26, R28, R30, R32
and 20_memory.md R58, and the report of an instruction that can fail (60_exceptions.md R206). -/
def mayWrite : Instr → List Part
  | .nop => []
  | .cls => [.display]
  | .ret => [.pc, .stack, .outputs]
  | .jp _ => [.pc]
  | .call _ => [.pc, .stack, .outputs]
  | .seImm _ _ => [.pc]
  | .sneImm _ _ => [.pc]
  | .seReg _ _ => [.pc]
  | .ldImm x _ => [.reg x]
  | .addImm x _ => [.reg x]
  | .ldReg x _ => [.reg x]
  | .orReg x _ => [.reg x]
  | .andReg x _ => [.reg x]
  | .xorReg x _ => [.reg x]
  | .addReg x _ => [.reg x, .reg flagReg]
  | .subReg x _ => [.reg x, .reg flagReg]
  | .shr x _ => [.reg x, .reg flagReg]
  | .subnReg x _ => [.reg x, .reg flagReg]
  | .shl x _ => [.reg x, .reg flagReg]
  | .sneReg _ _ => [.pc]
  | .ldI _ => [.addr]
  | .jpV0 _ => [.pc]
  | .rnd x _ => [.reg x, .random]
  | .drw _ _ _ => [.reg flagReg, .display, .outputs]
  | .skp _ => [.pc, .outputs]
  | .sknp _ => [.pc, .outputs]
  | .ldVxDT x => [.reg x]
  | .ldVxK x => [.reg x, .pc]
  | .ldDTVx _ => [.delay]
  | .ldSTVx _ => [.sound]
  | .addIVx _ => [.addr]
  | .ldFVx _ => [.addr]
  | .ldBVx _ => [.memory, .outputs]
  | .storeRegs _ => [.memory, .outputs]
  | .loadRegs x => .outputs :: regParts x

/-- The error of an instruction is met in this state, after the fetch (60_exceptions.md R202 to R204, R206). -/
def meetsError (i : Instr) (s : State) (e : ErrorKind) : Prop :=
  match i with
  | .ret => e = .stackUnderflow ∧ s.sp.val = 0
  | .call _ => e = .stackOverflow ∧ s.sp.val = 16
  | .drw _ _ n => e = .addressOutOfRange ∧ 1 ≤ n ∧ 0xFFF < s.i.toNat + n - 1
  | .skp x => e = .indexOutOfRange ∧ 15 < (s.reg x).toNat
  | .sknp x => e = .indexOutOfRange ∧ 15 < (s.reg x).toNat
  | .ldBVx _ => e = .addressOutOfRange ∧ 0xFFF < s.i.toNat + 2
  | .storeRegs x => e = .addressOutOfRange ∧ 0xFFF < s.i.toNat + x.val
  | .loadRegs x => e = .addressOutOfRange ∧ 0xFFF < s.i.toNat + x.val
  | .nop | .cls | .jp _ | .seImm _ _ | .sneImm _ _ | .seReg _ _ | .sneReg _ _ | .jpV0 _ => False
  | .ldImm _ _ | .addImm _ _ | .ldReg _ _ | .orReg _ _ | .andReg _ _ | .xorReg _ _ => False
  | .addReg _ _ | .subReg _ _ | .shr _ _ | .subnReg _ _ | .shl _ _ | .rnd _ _ => False
  | .ldI _ | .addIVx _ | .ldFVx _ | .ldVxDT _ | .ldVxK _ | .ldDTVx _ | .ldSTVx _ => False

/-! ### Sprites -/

/-- The sprite of `Dxyn` has a set bit that falls on column `px`, row `py` (R152). -/
def SpriteCovers (s : State) (x y : RegIdx) (n : Nat) (px : Fin 64) (py : Fin 32) : Prop :=
  ∃ r c : Nat, r < n ∧ c < 8 ∧ (s.mem.read (s.i.toNat + r)).getLsbD (7 - c) = true ∧
    px.val = ((s.reg x).toNat + c) % 64 ∧ py.val = ((s.reg y).toNat + r) % 32

/-! ### The invariant and the reachable states -/

/-- What every state of a run has: memory in canonical form, `PC` at most 0x10FE and every stack slot at most 0x1000
(10_state.md R27). That `SP` is in 0..16 and that every register has its width is in the types. -/
def Inv (s : State) : Prop :=
  s.mem.wf = true ∧ s.pc.toNat ≤ 0x10FE ∧ ∀ k : Fin 16, (s.stack[k]).toNat ≤ 0x1000

/-- The states the host can bring the core to from power-on, by any operations in any order (R170), whatever random bytes
were injected. -/
inductive Reachable : State → Prop where
  | powerOn (bytes : List Byte) : Reachable { State.reset with rndIn := bytes }
  | move (s t : State) (op : HostOp) (r : Reply) : Reachable s → op.perform s = .next (t, r) → Reachable t

/-- The reset values of 10_state.md R37, part by part. -/
def HasResetValues (t : State) : Prop :=
  (∀ r : RegIdx, t.reg r = 0) ∧ t.i = 0 ∧ t.pc = 0x200 ∧ t.sp = 0 ∧ (∀ k : Fin 16, t.stack[k] = 0) ∧
  t.dt = 0 ∧ t.st = 0 ∧ t.isBeeping = false ∧ (∀ k : Fin 16, t.key[k] = false) ∧
  (∀ (x : Fin 64) (y : Fin 32), t.px.get x y = false) ∧
  (∀ a : Nat, a < 80 → some (t.mem.read a) = glyphRom[a]?) ∧
  (∀ a : Nat, 80 ≤ a → a < 4096 → t.mem.read a = 0) ∧ t.dbg = false

/-- `k` steps in a row (R100, R170), with no other operation between them. -/
def runSteps : Nat → State → Out
  | 0, s => .next s
  | k + 1, s =>
    match step s with
    | .next t => runSteps k t
    | .fault r => .fault r
    | .refused r => .refused r

/-! ### The end of a run (70_reset_and_hazards.md R245) -/

/-- The word at `PC` is a jump to itself. -/
def Parked (s : State) : Prop :=
  ∃ (w : Word) (nnn : Addr12), s.fetchWord = some w ∧ decodeWord w = .ok (.jp nnn) ∧ nnn.toNat = s.pc.toNat

/-- The latest step returned an error. -/
def Failed (s : State) : Prop := s.report ≠ none

end Sys2Proof.Machine
end

