-- ==== Sys2Proof/Certificates/Slice0/Obligations.lean ====
section
/-! DEFINITION. The statements for the provers. `exec i s` runs on the state after the fetch (R100), so its `PC` is
`PC0 + 2`; `StepRunsTheDecodedInstruction` links it to `step`. `Frame l s t` says that every part of the state outside `l` is
unchanged, memory through the read of one byte at every address. -/

open Sys2Proof Sys2Proof.Machine

/-! ### Encoding -/

/-- Words written out from the encodings of 30_encoding.md R75 decode to their instructions, one or more a family, and some
words of no row are rejected. -/
def Obligations.WrittenOutWordsDecode : Prop :=
  decodeWord 0x0000 = .ok .nop ∧ decodeWord 0x00EE = .ok .ret ∧ decodeWord 0x1234 = .ok (.jp 0x234) ∧
  decodeWord 0x220C = .ok (.call 0x20C) ∧ decodeWord 0x332A = .ok (.seImm 3 0x2A) ∧
  decodeWord 0x8AB4 = .ok (.addReg 10 11) ∧ decodeWord 0xA300 = .ok (.ldI 0x300) ∧
  decodeWord 0xD125 = .ok (.drw 1 2 5) ∧ decodeWord 0xE29E = .ok (.skp 2) ∧ decodeWord 0xF365 = .ok (.loadRegs 3) ∧
  decodeWord 0x0100 = .error (.unsupported 0x0100) ∧ decodeWord 0x801F = .error (.unsupported 0x801F)

/-- R74: a word decodes exactly to the row of R75 with `w & mask = match`; the rows are pairwise disjoint; a word of no row is
rejected as unsupported; the only defined words of class 0 are the three `FIXED` rows. -/
def Obligations.DecodeFollowsTheOpcodeMap : Prop :=
  ∀ w : Word,
    (∀ i, decodeWord w = .ok i → i.row ∈ opcodeRows ∧ i.row.selectedBy w = true) ∧
    (∀ r ∈ opcodeRows, r.selectedBy w = true → ∃ i, decodeWord w = .ok i ∧ i.row = r) ∧
    (∀ r ∈ opcodeRows, ∀ r' ∈ opcodeRows, r.selectedBy w = true → r'.selectedBy w = true → r = r') ∧
    ((∀ r ∈ opcodeRows, r.selectedBy w = false) → decodeWord w = .error (.unsupported w)) ∧
    (fieldN1 w = 0 → ∀ i, decodeWord w = .ok i → w = 0x0000 ∨ w = 0x00E0 ∨ w = 0x00EE)

/-- The illegal words are exactly the six classes tabulated in 30_encoding.md section 4. -/
def Obligations.UnsupportedWordsAreTheSixClasses : Prop :=
  ∀ w : Word, decodeWord w = .error (.unsupported w) ↔
    (w.toNat / 0x1000 = 0x0 ∧ w.toNat ∉ [0x0000, 0x00E0, 0x00EE]) ∨
    (w.toNat / 0x1000 = 0x5 ∧ w.toNat % 0x10 ≠ 0) ∨
    (w.toNat / 0x1000 = 0x8 ∧ w.toNat % 0x10 ∈ [0x8, 0x9, 0xA, 0xB, 0xC, 0xD, 0xF]) ∨
    (w.toNat / 0x1000 = 0x9 ∧ w.toNat % 0x10 ≠ 0) ∨
    (w.toNat / 0x1000 = 0xE ∧ w.toNat % 0x100 ∉ [0x9E, 0xA1]) ∨
    (w.toNat / 0x1000 = 0xF ∧ w.toNat % 0x100 ∉ [0x07, 0x0A, 0x15, 0x18, 0x1E, 0x29, 0x33, 0x55, 0x65])

/-- Decoding the bytes of any well-formed instruction, whatever bytes follow, gives it back with every operand, and leaves
the bytes that follow. -/
def Obligations.DecodeOfEncodeIsTheInstruction : Prop :=
  ∀ (i : Instr) (rest : List Byte), i.wf = true → decode (encode i ++ rest) = .ok (i, rest)

/-- Every word the decoder accepts is the encoding of the instruction it reads, which is well formed: no word loses a bit.
For `8xy6` and `8xyE` with `y` not 0 the word comes back only because the model keeps the ignored `y` in the syntax (DESIGN
CHOICE, log entry 18): any `y` is the same instruction to the spec (R79). -/
def Obligations.EncodeOfDecodeIsTheWord : Prop :=
  ∀ (w : Word) (i : Instr), decodeWord w = .ok i → i.wf = true ∧ encodeWord i = w

/-! ### The step -/

/-- When the two bytes at `PC` decode to a well-formed instruction, `step` is that instruction's `exec` on the fetched
state: `PC` two further, the result cleared, the trace record emitted when `DBG` = 1, everything else as it was. -/
def Obligations.StepRunsTheDecodedInstruction : Prop :=
  ∀ (s : State) (hi lo : Byte) (i : Instr), s.pc.toNat ≤ 0xFFE → s.mem.read s.pc.toNat = hi →
    s.mem.read (s.pc.toNat + 1) = lo → decode [hi, lo] = .ok (i, []) → i.wf = true →
    ∃ u, step s = exec i u ∧ u.pc.toNat = s.pc.toNat + 2 ∧ u.report = none ∧
      u.trace = (if s.dbg then some ⟨s.pc, wordOfBytes hi lo⟩ else none) ∧ Frame [.pc, .outputs] s u

/-- The fetch reads the byte at `PC` as the high byte and the next as the low byte and advances `PC` by two; with `PC`
above 0xFFE the step fails with `AddressOutOfRange`, nothing changes (the spec's choice D2, log entry 1), nothing is traced
(D14, log entry 12), and every later step fails the same way. -/
def Obligations.FetchIsBigEndianAndChecked : Prop :=
  ∀ s : State,
    (s.pc.toNat ≤ 0xFFE → ∃ w, s.fetchWord = some w ∧
      w.toNat = (s.mem.read s.pc.toNat).toNat * 0x100 + (s.mem.read (s.pc.toNat + 1)).toNat ∧
      (s.fetched w).pc.toNat = s.pc.toNat + 2) ∧
    (0xFFE < s.pc.toNat → ∃ t, step s = .next t ∧ t.report = some .addressOutOfRange ∧ t.trace = none ∧
      Frame [.outputs] s t ∧ ∀ k, runSteps (k + 1) s = .next t)

/-- A word of no row of the opcode map: the step reports `UnsupportedInstruction`, `PC` is past the word (the spec's choice
D28, log entry 1) and nothing else changes. -/
def Obligations.UnsupportedWordIsReported : Prop :=
  ∀ (s : State) (w : Word), s.fetchWord = some w → (∀ r ∈ opcodeRows, r.selectedBy w = false) →
    ∃ t, step s = .next t ∧ t.report = some .unsupportedInstruction ∧ t.pc.toNat = s.pc.toNat + 2 ∧
      Frame [.pc, .outputs] s t

/-- Every operation is defined in every state: each ends in a next state, none in a fault or a refusal (that an error is a
next state is the model's form, log entry 1). -/
def Obligations.EveryOperationIsDefinedInEveryState : Prop :=
  (∀ s : State, ∃ t, step s = .next t) ∧
  (∀ (op : HostOp) (s : State), ∃ t r, op.perform s = .next (t, r))

/-- Errors are precise (the spec's choices D2 and D3, log entries 1 and 14): a step that reports an error changed nothing
but `PC`, which stands at `PC0` after a fetch error and at `PC0 + 2` after any other. -/
def Obligations.ErrorsArePrecise : Prop :=
  ∀ (s t : State) (e : ErrorKind), step s = .next t → t.report = some e →
    Frame [.pc, .outputs] s t ∧
    ((0xFFE < s.pc.toNat ∧ e = .addressOutOfRange ∧ t.pc = s.pc) ∨
     (s.pc.toNat ≤ 0xFFE ∧ t.pc.toNat = s.pc.toNat + 2))

/-- Which instruction reports which error, and exactly when; where none is met none is reported, and one that is met
leaves all but the report. Rests on the spec's choices D3, D7, D8, D9 (log entries 1, 7, 8, 14). -/
def Obligations.ErrorsExactlyWhenTheirConditionHolds : Prop :=
  ∀ (i : Instr) (s : State), s.report = none → ∃ t, exec i s = .next t ∧
    ∀ e, (t.report = some e ↔ meetsError i s e) ∧ (meetsError i s e → t = { s with report := some e })

/-- No fault latch (the spec's choice D4, log entry 1): after a step that reported an error the next step runs exactly as it
would from the state before it with only `PC` moved, so a host that steps again goes on past the failed instruction. -/
def Obligations.NoFaultLatch : Prop :=
  ∀ (s t : State) (e : ErrorKind), step s = .next t → t.report = some e → step t = step { s with pc := t.pc }

/-- R221: the state after a step is the same for `DBG` = 0 and `DBG` = 1, but for `DBG` itself and the record emitted. -/
def Obligations.TracingNeverChangesState : Prop :=
  ∀ (s : State) (b : Bool), ∃ t t', step s = .next t ∧ step { s with dbg := b } = .next t' ∧
    t' = { t with dbg := b, trace := t'.trace }

/-- A step emits one record, the address and the raw word, exactly when `DBG` = 1 and the fetch succeeded, for unsupported
words too (the spec's choice D14, log entry 12). -/
def Obligations.TraceRecordPerFetchedWord : Prop :=
  ∀ (s t : State), step s = .next t →
    t.trace = if s.dbg then s.fetchWord.map (fun w => ⟨s.pc, w⟩) else none

/-! ### Whole-machine frames and the invariant -/

/-- Whatever the instruction, only the parts the writers' lists of 10_state.md and 20_memory.md name for it can change; and
the two that store, `Fx33` and `Fx55`, change no byte outside the three, or the `x + 1`, from `I` upward, the base
`State.writeData` stores at. It holds when the instruction reports an error too. -/
def Obligations.InstructionsWriteOnlyTheirParts : Prop :=
  ∀ (i : Instr) (s t : State), exec i s = .next t →
    Frame (mayWrite i) s t ∧
    (∀ x, i = .ldBVx x → MemorySameOutside s.i.toNat 3 s t) ∧
    (∀ x, i = .storeRegs x → MemorySameOutside s.i.toNat (x.val + 1) s t)

/-- No step changes a key state or `DBG`; `DT` changes only in a step that runs `Fx15`, and `ST` only in one that runs
`Fx18`: executing instructions does not make time pass. -/
def Obligations.StepsLeaveKeysAndTimersToTheHost : Prop :=
  ∀ (s t : State), step s = .next t → t.key = s.key ∧ t.dbg = s.dbg ∧
    (t.dt ≠ s.dt → ∃ w x, s.fetchWord = some w ∧ decodeWord w = .ok (.ldDTVx x)) ∧
    (t.st ≠ s.st → ∃ w x, s.fetchWord = some w ∧ decodeWord w = .ok (.ldSTVx x))

/-- The reset state meets the invariant: memory canonical (the model's own form, log entry 10), `PC` at most 0x10FE, stack
slots at most 0x1000. -/
def Obligations.ResetMeetsTheInvariant : Prop := Inv State.reset

/-- Every step from every state that meets the invariant keeps it. The bounds are those of 10_state.md R27 (with the spec's
choices D19 and D27, log entry 20); the canonical form of memory is the model's (log entry 10). -/
def Obligations.StepKeepsTheInvariant : Prop :=
  ∀ (s t : State), Inv s → step s = .next t → Inv t

/-- Every operation of the host keeps the invariant from every state that meets it, and every power-on state meets it; so
every state the host can reach by any operations in any order does. The bounds rest on the spec's choices D19 and D27 (log
entry 20); the canonical form of memory is the model's (log entry 10). -/
def Obligations.ReachableStatesMeetTheInvariant : Prop :=
  (∀ (op : HostOp) (s t : State) (r : Reply), Inv s → op.perform s = .next (t, r) → Inv t) ∧
  (∀ bytes : List Byte, Inv { State.reset with rndIn := bytes }) ∧
  ∀ s : State, Reachable s → Inv s

/-- R37: after `construct()` and after `reset()`, from any state, every part of the state has its reset value, and the
model's `State.reset` has them. -/
def Obligations.ResetGivesTheResetValues : Prop :=
  HasResetValues State.reset ∧ glyphRom.length = 80 ∧
  ∀ s : State, ∃ t, HostOp.construct.perform s = .next (t, .done) ∧ HostOp.reset.perform s = .next (t, .done) ∧
    HasResetValues t

/-! ### Control flow -/

/-- R101: `0000`, the one legal word of its class besides `00E0` and `00EE`, has no effect; a step that fetches it advances
`PC` by two and changes nothing else. -/
def Obligations.NopHasNoEffect : Prop :=
  decodeWord 0x0000 = .ok .nop ∧
  (∀ w : Word, fieldN1 w = 0 → w ∉ [0x0000, 0x00E0, 0x00EE] → decodeWord w = .error (.unsupported w)) ∧
  (∀ s : State, exec .nop s = .next s) ∧
  (∀ s : State, s.fetchWord = some 0x0000 → ∃ t, step s = .next t ∧ t.report = none ∧
    t.pc.toNat = s.pc.toNat + 2 ∧ Frame [.pc, .outputs] s t)

/-- R103: `1nnn` sets `PC` to `nnn` and changes nothing else; with `nnn` = 0xFFF the next step fails in fetch. -/
def Obligations.JpSetsPc : Prop :=
  ∀ (nnn : Addr12) (s : State), ∃ t, exec (.jp nnn) s = .next t ∧ t.pc.toNat = nnn.toNat ∧ Frame [.pc] s t ∧
    (nnn = 0xFFF → ∃ u, step t = .next u ∧ u.report = some .addressOutOfRange)

/-- `Bnnn` sets `PC` to `V[0] + nnn`, not reduced (the spec's choices D19 and D27, log entry 20), and changes nothing
else; a sum above 0xFFE makes the next step fail in fetch. -/
def Obligations.JpV0AddsRegisterZero : Prop :=
  ∀ (nnn : Addr12) (s : State), ∃ t, exec (.jpV0 nnn) s = .next t ∧
    t.pc.toNat = (s.reg 0).toNat + nnn.toNat ∧ Frame [.pc] s t ∧
    (0xFFE < (s.reg 0).toNat + nnn.toNat → ∃ u, step t = .next u ∧ u.report = some .addressOutOfRange)

/-- `2nnn` pushes the advanced `PC` and jumps; with sixteen return addresses held it reports `StackOverflow` and does
neither. The slot written is the spec's layout D13 (log entry 15). -/
def Obligations.CallPushesAndJumps : Prop :=
  ∀ (nnn : Addr12) (s : State),
    (s.sp.val < 16 → ∃ t, exec (.call nnn) s = .next t ∧ t.pc.toNat = nnn.toNat ∧ t.sp.val = s.sp.val + 1 ∧
      (∀ k : Fin 16, t.stack[k] = if k.val = s.sp.val then s.pc else s.stack[k]) ∧ Frame [.pc, .stack] s t) ∧
    (s.sp.val = 16 → exec (.call nnn) s = .next { s with report := some .stackOverflow })

/-- `00EE` sets `PC` to the popped value, the slot keeping it (the spec's layout D13, log entry 15); with the stack empty it
reports `StackUnderflow`. -/
def Obligations.RetPopsThePc : Prop :=
  ∀ s : State,
    (0 < s.sp.val → ∃ t, exec .ret s = .next t ∧ t.sp.val + 1 = s.sp.val ∧
      (∀ k : Fin 16, k.val + 1 = s.sp.val → t.pc = s.stack[k]) ∧ t.stack = s.stack ∧ Frame [.pc, .stack] s t) ∧
    (s.sp.val = 0 → exec .ret s = .next { s with report := some .stackUnderflow })

/-- A return undoes the most recent unreturned call, whatever ran in between and left the stack as the call left it: `PC`
is the address after the call and the depth is as before it. -/
def Obligations.RetReturnsAfterTheCall : Prop :=
  ∀ (nnn : Addr12) (s t u : State), s.sp.val < 16 → exec (.call nnn) s = .next t → u.stack = t.stack → u.sp = t.sp →
    ∃ r, exec .ret u = .next r ∧ r.pc = s.pc ∧ r.sp = s.sp ∧
      ∀ k : Fin 16, k.val < s.sp.val → r.stack[k] = s.stack[k]

/-- R106 to R109: `3xnn`, `4xnn`, `5xy0`, `9xy0` add 2 more to `PC` when their condition holds and change nothing else. -/
def Obligations.SkipsCompareAndSkip : Prop :=
  ∀ (x y : RegIdx) (nn : Byte) (s : State),
    (∃ t, exec (.seImm x nn) s = .next t ∧ t.pc = (if s.reg x = nn then s.pc + 2 else s.pc) ∧ Frame [.pc] s t) ∧
    (∃ t, exec (.sneImm x nn) s = .next t ∧ t.pc = (if s.reg x = nn then s.pc else s.pc + 2) ∧ Frame [.pc] s t) ∧
    (∃ t, exec (.seReg x y) s = .next t ∧ t.pc = (if s.reg x = s.reg y then s.pc + 2 else s.pc) ∧ Frame [.pc] s t) ∧
    (∃ t, exec (.sneReg x y) s = .next t ∧ t.pc = (if s.reg x = s.reg y then s.pc else s.pc + 2) ∧ Frame [.pc] s t)

/-! ### Loads, arithmetic, logic, shifts, the random byte -/

/-- R121, R122, R123: `6xnn` loads the immediate, `7xnn` adds it modulo 256 with no flag, `8xy0` copies; nothing but
`V[x]` changes. -/
def Obligations.LoadsCopiesAndAddImmediate : Prop :=
  ∀ (x y : RegIdx) (nn : Byte) (s : State),
    (∃ t, exec (.ldImm x nn) s = .next t ∧ t.reg x = nn ∧ Frame [.reg x] s t) ∧
    (∃ t, exec (.addImm x nn) s = .next t ∧ (t.reg x).toNat = ((s.reg x).toNat + nn.toNat) % 256 ∧
      Frame [.reg x] s t) ∧
    (∃ t, exec (.ldReg x y) s = .next t ∧ t.reg x = s.reg y ∧ Frame [.reg x] s t)

/-- `8xy1`, `8xy2`, `8xy3` combine `V[x]` and `V[y]` bit by bit and change nothing else: `V[15]` is left as it was unless it
is `V[x]` (the spec's choice D10, log entry 19). -/
def Obligations.LogicIsBitwiseAndLeavesTheFlag : Prop :=
  ∀ (x y : RegIdx) (s : State),
    (∃ t, exec (.orReg x y) s = .next t ∧ Frame [.reg x] s t ∧
      ∀ k, k < 8 → (t.reg x).getLsbD k = ((s.reg x).getLsbD k || (s.reg y).getLsbD k)) ∧
    (∃ t, exec (.andReg x y) s = .next t ∧ Frame [.reg x] s t ∧
      ∀ k, k < 8 → (t.reg x).getLsbD k = ((s.reg x).getLsbD k && (s.reg y).getLsbD k)) ∧
    (∃ t, exec (.xorReg x y) s = .next t ∧ Frame [.reg x] s t ∧
      ∀ k, k < 8 → (t.reg x).getLsbD k = ((s.reg x).getLsbD k ^^ (s.reg y).getLsbD k))

/-- `8xy4`, `8xy5`, `8xy7`: the result modulo 256 in `V[x]` and the carry or not-borrow of the old operands in `V[15]`; when
`x` = 15 the flag is what `V[15]` holds (the spec's choice D5, log entry 5). -/
def Obligations.AdditionAndSubtractionSetTheFlag : Prop :=
  ∀ (x y : RegIdx) (s : State),
    (∃ t, exec (.addReg x y) s = .next t ∧ Frame [.reg x, .reg 15] s t ∧
      (x ≠ 15 → (t.reg x).toNat = ((s.reg x).toNat + (s.reg y).toNat) % 256) ∧
      (t.reg 15).toNat = if 255 < (s.reg x).toNat + (s.reg y).toNat then 1 else 0) ∧
    (∃ t, exec (.subReg x y) s = .next t ∧ Frame [.reg x, .reg 15] s t ∧
      (x ≠ 15 → ((t.reg x).toNat : Int) = ((s.reg x).toNat - (s.reg y).toNat : Int) % 256) ∧
      (t.reg 15).toNat = if (s.reg y).toNat ≤ (s.reg x).toNat then 1 else 0) ∧
    (∃ t, exec (.subnReg x y) s = .next t ∧ Frame [.reg x, .reg 15] s t ∧
      (x ≠ 15 → ((t.reg x).toNat : Int) = ((s.reg y).toNat - (s.reg x).toNat : Int) % 256) ∧
      (t.reg 15).toNat = if (s.reg x).toNat ≤ (s.reg y).toNat then 1 else 0)

/-- `8xy6`, `8xyE`: `V[x]` halved or doubled modulo 256, whatever `y` (`V[y]` is never read, the spec's choice D10, log entry
19), and the bit shifted out in `V[15]`; when `x` = 15 the shifted value is what `V[15]` holds (D6, log entry 6). -/
def Obligations.ShiftsSetTheFlagBeforeTheResult : Prop :=
  ∀ (x y : RegIdx) (s : State),
    (∃ t, exec (.shr x y) s = .next t ∧ Frame [.reg x, .reg 15] s t ∧ (t.reg x).toNat = (s.reg x).toNat / 2 ∧
      (x ≠ 15 → (t.reg 15).toNat = (s.reg x).toNat % 2)) ∧
    (∃ t, exec (.shl x y) s = .next t ∧ Frame [.reg x, .reg 15] s t ∧ (t.reg x).toNat = (s.reg x).toNat * 2 % 256 ∧
      (x ≠ 15 → (t.reg 15).toNat = (s.reg x).toNat / 128))

/-- `Cxnn` masks a random byte: the injected one where there is one, and any byte at all leaves no bit outside `nn`. The
byte is an input (the spec's choice D12, log entry 4). -/
def Obligations.RandomByteIsMasked : Prop :=
  ∀ (x : RegIdx) (nn : Byte) (s : State), ∃ t, exec (.rnd x nn) s = .next t ∧ Frame [.reg x, .random] s t ∧
    (t.reg x) &&& ~~~nn = 0 ∧ (nn = 0 → t.reg x = 0) ∧
    ∀ b bs, s.rndIn = b :: bs → t.reg x = b &&& nn ∧ t.rndIn = bs

/-- The input `rnd` of a step is used by `Cxnn` only: `Cxnn` writes `rnd & nn`, and a step that runs anything else, or fails,
is the same for every `rnd` (log entry 4). -/
def Obligations.OnlyRandomInstructionUsesRnd : Prop :=
  (∀ (s : State) (w : Word) (x : RegIdx) (nn b : Byte), s.fetchWord = some w → decodeWord w = .ok (.rnd x nn) →
    ∃ t, stepWith b s = .next t ∧ t.reg x = b &&& nn ∧ t.report = none) ∧
  (∀ (s : State) (a b : Byte), (∀ w x nn, s.fetchWord = some w → decodeWord w ≠ .ok (.rnd x nn)) →
    stepWith a s = stepWith b s)

/-! ### The address register and memory -/

/-- R140: `Annn` sets `I` to `nnn`, a valid address, and changes nothing else; a step takes `I` above 0xFFF only when it runs
`Fx1E`. -/
def Obligations.LdISetsTheAddressRegister : Prop :=
  (∀ (nnn : Addr12) (s : State), ∃ t, exec (.ldI nnn) s = .next t ∧ t.i.toNat = nnn.toNat ∧ t.i.toNat ≤ 0xFFF ∧
    Frame [.addr] s t) ∧
  (∀ s t : State, step s = .next t → s.i.toNat ≤ 0xFFF → 0xFFF < t.i.toNat →
    ∃ w x, s.fetchWord = some w ∧ decodeWord w = .ok (.addIVx x))

/-- `Fx1E` adds to `I` modulo 65536 with no flag, and `Fx29` multiplies the whole byte by 5 (the spec's choice D10, log entry
19); nothing but `I` changes. -/
def Obligations.AddressArithmetic : Prop :=
  ∀ (x : RegIdx) (s : State),
    (∃ t, exec (.addIVx x) s = .next t ∧ t.i.toNat = (s.i.toNat + (s.reg x).toNat) % 65536 ∧ Frame [.addr] s t) ∧
    (∃ t, exec (.ldFVx x) s = .next t ∧ t.i.toNat = (s.reg x).toNat * 5 ∧ Frame [.addr] s t)

/-- `Fx33` stores hundreds, tens and ones of `V[x]` at `I`, `I+1`, `I+2` and changes no other byte and nothing else; when a
byte would lie above 0xFFF it reports `AddressOutOfRange` and stores none (the spec's choices D3 and D9, log entry 14). -/
def Obligations.BcdStoresThreeDigits : Prop :=
  ∀ (x : RegIdx) (s : State), s.mem.wf = true →
    (s.i.toNat + 2 ≤ 0xFFF → ∃ t, exec (.ldBVx x) s = .next t ∧
      (t.mem.read s.i.toNat).toNat = (s.reg x).toNat / 100 ∧
      (t.mem.read (s.i.toNat + 1)).toNat = (s.reg x).toNat / 10 % 10 ∧
      (t.mem.read (s.i.toNat + 2)).toNat = (s.reg x).toNat % 10 ∧
      MemorySameOutside s.i.toNat 3 s t ∧ Frame [.memory] s t) ∧
    (0xFFF < s.i.toNat + 2 → exec (.ldBVx x) s = .next { s with report := some .addressOutOfRange })

/-- `Fx55` stores `V[0]` to `V[x]` at `I` upward and changes no other byte and nothing else, `I` included (D10, log entry 19);
when a byte would lie above 0xFFF it reports `AddressOutOfRange` and stores none (D3, D9, log entry 14). -/
def Obligations.StoreRegistersWritesTheRun : Prop :=
  ∀ (x : RegIdx) (s : State), s.mem.wf = true →
    (s.i.toNat + x.val ≤ 0xFFF → ∃ t, exec (.storeRegs x) s = .next t ∧
      (∀ k : RegIdx, k ≤ x → t.mem.read (s.i.toNat + k.val) = s.reg k) ∧
      MemorySameOutside s.i.toNat (x.val + 1) s t ∧ Frame [.memory] s t) ∧
    (0xFFF < s.i.toNat + x.val → exec (.storeRegs x) s = .next { s with report := some .addressOutOfRange })

/-- `Fx65` loads `V[0]` to `V[x]` from `I` upward and changes nothing else; when a byte would lie above 0xFFF it reports
`AddressOutOfRange` and loads none (D3, D9, D10, log entries 14 and 19). -/
def Obligations.LoadRegistersReadsTheRun : Prop :=
  ∀ (x : RegIdx) (s : State),
    (s.i.toNat + x.val ≤ 0xFFF → ∃ t, exec (.loadRegs x) s = .next t ∧
      (∀ k : RegIdx, k ≤ x → t.reg k = s.mem.read (s.i.toNat + k.val)) ∧ Frame (regParts x) s t) ∧
    (0xFFF < s.i.toNat + x.val → exec (.loadRegs x) s = .next { s with report := some .addressOutOfRange })

/-- A block load from where a block store wrote gives every register its stored value back. -/
def Obligations.BlockLoadUndoesBlockStore : Prop :=
  ∀ (x : RegIdx) (s t u : State), s.mem.wf = true → s.i.toNat + x.val ≤ 0xFFF → exec (.storeRegs x) s = .next t →
    u.mem = t.mem → u.i = t.i →
    ∃ r, exec (.loadRegs x) u = .next r ∧ ∀ k : RegIdx, k ≤ x → r.reg k = s.reg k

/-- A store is seen by the very next fetch: a block store at the address the next instruction is fetched from makes that
instruction the word of `V[0]` and `V[1]`. -/
def Obligations.StoreIsSeenByTheNextFetch : Prop :=
  ∀ (x : RegIdx) (s : State), s.mem.wf = true → s.i = s.pc → 1 ≤ x.val → s.i.toNat + x.val ≤ 0xFFF →
    ∃ t, exec (.storeRegs x) s = .next t ∧ t.fetchWord = some (wordOfBytes (s.reg 0) (s.reg 1))

/-! ### The display -/

/-- R151: `00E0` turns every pixel off and changes nothing else. -/
def Obligations.ClsTurnsEveryPixelOff : Prop :=
  ∀ s : State, ∃ t, exec .cls s = .next t ∧ (∀ (x : Fin 64) (y : Fin 32), t.px.get x y = false) ∧ Frame [.display] s t

/-- `Dxyn` refines its loop: a pixel is toggled exactly when a set sprite bit falls on it with wrap-around per pixel, every
other pixel stays, and `V[15]` is 1 exactly when a covered pixel was on before; nothing else changes. With `n` = 0 that is
`V[15] <- 0` alone (the spec's choice D7, log entry 8). -/
def Obligations.DrawTogglesExactlyTheSpritePixels : Prop :=
  ∀ (x y : RegIdx) (n : Nat) (s : State), (Instr.drw x y n).wf = true → (1 ≤ n → s.i.toNat + n - 1 ≤ 0xFFF) →
    ∃ t, exec (.drw x y n) s = .next t ∧ Frame [.reg 15, .display] s t ∧
      (∀ (px : Fin 64) (py : Fin 32),
        (SpriteCovers s x y n px py → t.px.get px py = !s.px.get px py) ∧
        (¬ SpriteCovers s x y n px py → t.px.get px py = s.px.get px py)) ∧
      ((∃ px py, SpriteCovers s x y n px py ∧ s.px.get px py = true) → t.reg 15 = 1) ∧
      ((¬ ∃ px py, SpriteCovers s x y n px py ∧ s.px.get px py = true) → t.reg 15 = 0)

/-- Drawing the same sprite twice at the same place restores the display. -/
def Obligations.DrawingTwiceRestoresTheDisplay : Prop :=
  ∀ (x y : RegIdx) (n : Nat) (s t u : State), (Instr.drw x y n).wf = true → (1 ≤ n → s.i.toNat + n - 1 ≤ 0xFFF) →
    exec (.drw x y n) s = .next t → u.px = t.px → u.mem = s.mem → u.i = s.i → u.reg x = s.reg x → u.reg y = s.reg y →
    ∃ r, exec (.drw x y n) u = .next r ∧ r.px = s.px

/-- A draw whose rows would pass 0xFFF reports `AddressOutOfRange` and changes no pixel and no flag (the spec's choices D3
and D9, log entry 14); a draw of no row never fails, whatever `I` (D7, log entry 8). -/
def Obligations.DrawChecksItsRowsFirst : Prop :=
  ∀ (x y : RegIdx) (n : Nat) (s : State),
    (1 ≤ n → 0xFFF < s.i.toNat + n - 1 → exec (.drw x y n) s = .next { s with report := some .addressOutOfRange }) ∧
    (∃ t, exec (.drw x y 0) s = .next t ∧ t.reg 15 = 0 ∧ Frame [.reg 15] s t)

/-! ### Keys and timers -/

/-- `Ex9E` and `ExA1` skip by the state of key `V[x]`; an index above 15 reports `IndexOutOfRange` with no skip (the spec's
choice D8, log entry 7). -/
def Obligations.KeySkipsReadTheKey : Prop :=
  ∀ (x : RegIdx) (s : State),
    (∀ k : Fin 16, (s.reg x).toNat = k.val →
      (∃ t, exec (.skp x) s = .next t ∧ t.pc = (if s.key[k] then s.pc + 2 else s.pc) ∧ Frame [.pc] s t) ∧
      (∃ t, exec (.sknp x) s = .next t ∧ t.pc = (if s.key[k] then s.pc else s.pc + 2) ∧ Frame [.pc] s t)) ∧
    (15 < (s.reg x).toNat → exec (.skp x) s = .next { s with report := some .indexOutOfRange } ∧
      exec (.sknp x) s = .next { s with report := some .indexOutOfRange })

/-- R163, R165, R166: `Fx07` reads the delay timer, `Fx15` writes it, and `Fx18` writes the sound timer, whose beep is on
exactly when the value is not zero. Nothing else changes. -/
def Obligations.TimerInstructionsMoveTheTimers : Prop :=
  ∀ (x : RegIdx) (s : State),
    (∃ t, exec (.ldVxDT x) s = .next t ∧ t.reg x = s.dt ∧ Frame [.reg x] s t) ∧
    (∃ t, exec (.ldDTVx x) s = .next t ∧ t.dt = s.reg x ∧ Frame [.delay] s t) ∧
    (∃ t, exec (.ldSTVx x) s = .next t ∧ t.st = s.reg x ∧ (t.isBeeping = true ↔ s.reg x ≠ 0) ∧ Frame [.sound] s t)

/-- `Fx0A` with a key down puts the lowest index of a key down in `V[x]` and goes on (by the level of the keys, the spec's
choice D23, log entry 24); with no key down `V[x]` is the delay timer (U1, DEDUCED, log entry 17) and `PC` goes back by 2, so
that the step leaves `PC` at the instruction itself. -/
def Obligations.WaitForKeyTakesTheLowestKeyOrStays : Prop :=
  ∀ (x : RegIdx) (s : State),
    (∀ k : Fin 16, s.key[k] = true → (∀ j : Fin 16, j < k → s.key[j] = false) →
      ∃ t, exec (.ldVxK x) s = .next t ∧ (t.reg x).toNat = k.val ∧ Frame [.reg x] s t) ∧
    ((∀ j : Fin 16, s.key[j] = false) →
      ∃ t, exec (.ldVxK x) s = .next t ∧ t.reg x = s.dt ∧ t.pc = s.pc - 2 ∧ Frame [.reg x, .pc] s t) ∧
    ((∀ j : Fin 16, s.key[j] = false) → ∀ w, s.fetchWord = some w → decodeWord w = .ok (.ldVxK x) →
      ∃ t, step s = .next t ∧ t.report = none ∧ t.reg x = s.dt ∧ t.pc = s.pc ∧ Frame [.reg x, .outputs] s t)

/-! ### The operations of the host -/

/-- `tickTimers()` takes one from each timer that is above zero and changes nothing else; after any number of ticks a timer
is what it was less that number, never below zero. -/
def Obligations.TicksCountDownToZero : Prop :=
  ∀ s : State,
    (∃ t, HostOp.tickTimers.perform s = .next (t, .done) ∧ t.dt.toNat = s.dt.toNat - 1 ∧ t.st.toNat = s.st.toNat - 1 ∧
      Frame [.delay, .sound] s t) ∧
    ∀ k : Nat, ((State.tickTimers^[k]) s).dt.toNat = s.dt.toNat - k ∧ ((State.tickTimers^[k]) s).st.toNat = s.st.toNat - k

/-- `load(bytes)` writes the bytes verbatim from 0x200 and changes no other byte and nothing else; a program that does not
fit is rejected with `MemoryOverflow` and nothing changes (the spec's choices D18 and D24, log entry 22). -/
def Obligations.LoadCopiesOrRejects : Prop :=
  ∀ (bytes : List Byte) (s : State), s.mem.wf = true →
    (bytes.length ≤ 3584 → ∃ t, (HostOp.load bytes).perform s = .next (t, .result none) ∧
      (∀ k, k < bytes.length → some (t.mem.read (0x200 + k)) = bytes[k]?) ∧
      MemorySameOutside 0x200 bytes.length s t ∧ Frame [.memory] s t) ∧
    (3584 < bytes.length → (HostOp.load bytes).perform s = .next (s, .result (some .memoryOverflow)))

/-- `setKey(index, pressed)` sets the one key; an index outside 0..15 is rejected with `IndexOutOfRange` and nothing changes
(the spec's choice D24, log entry 22). -/
def Obligations.SetKeySetsOneKey : Prop :=
  ∀ (index : Int) (pressed : Bool) (s : State),
    (0 ≤ index → index ≤ 15 → ∃ t, (HostOp.setKey index pressed).perform s = .next (t, .result none) ∧
      (∀ k : Fin 16, t.key[k] = if (k.val : Int) = index then pressed else s.key[k]) ∧ Frame [.keys] s t) ∧
    (index < 0 ∨ 15 < index → (HostOp.setKey index pressed).perform s = .next (s, .result (some .indexOutOfRange)))

/-- `getDisplay()` presents pixel `(x, y)` as element `y * 64 + x` of 2048 and `isBeeping()` is whether `ST` is above zero;
neither changes anything (the spec's choices D20 and D22, log entry 26). `setTrace(on)` sets `DBG` alone (D14, log entry 23). -/
def Obligations.HostReadsAndTraceSwitch : Prop :=
  ∀ (s : State) (on : Bool),
    (∃ g, HostOp.getDisplay.perform s = .next (s, .grid g) ∧ g.length = 2048 ∧
      ∀ (x : Fin 64) (y : Fin 32), g[y.val * 64 + x.val]? = some (s.px.get x y)) ∧
    (∃ b, HostOp.isBeeping.perform s = .next (s, .flag b) ∧ (b = true ↔ s.st ≠ 0)) ∧
    (∃ t, (HostOp.setTrace on).perform s = .next (t, .done) ∧ t.dbg = on ∧ Frame [.debug] s t)

/-! ### Runs -/

/-- A parked core stays parked: every step returns `Ok` and changes nothing, ticks and key changes leave it parked (the
spec's choice D31, log entry 28). -/
def Obligations.ParkedCoreStaysParked : Prop :=
  ∀ s : State, Parked s →
    (∃ t, step s = .next t ∧ t.report = none ∧ Frame [.outputs] s t ∧ Parked t) ∧
    Parked s.tickTimers ∧
    ∀ index pressed t, s.setKey index pressed = .ok t → Parked t

/-- With nothing loaded the core runs no-ops from 0x200: after `k` steps, up to 1792, `PC` is `0x200 + 2 k` and all else is as
at reset; the next step fails with `AddressOutOfRange`. -/
def Obligations.EmptyMemoryRunsNoOps : Prop :=
  (∀ k : Nat, k ≤ 1792 → runSteps k State.reset =
    .next { State.reset with pc := BitVec.ofNat 16 (0x200 + 2 * k) }) ∧
  runSteps 1793 State.reset =
    .next { State.reset with pc := 0x1000, report := some .addressOutOfRange }
end

