-- ==== Sys2Proof/Laws/Decode.lean ====
section
/-! SUPPORT. The fields of a laid-out word are the operands it was laid out from (30_encoding.md R71, R72), and a word is
the layout of its fields. -/

namespace Sys2Proof

/-! ### Bytes of a word (R55) -/

@[simp] theorem wordOfBytes_hiByte_loByte (w : Word) : wordOfBytes (hiByte w) (loByte w) = w := by
  apply BitVec.eq_of_toNat_eq
  have := w.isLt
  simp only [wordOfBytes, hiByte, loByte, BitVec.toNat_ofNat, BitVec.extractLsb'_toNat]
  omega

@[simp] theorem hiByte_wordOfBytes (hi lo : Byte) : hiByte (wordOfBytes hi lo) = hi := by
  apply BitVec.eq_of_toNat_eq
  have := hi.isLt
  have := lo.isLt
  simp only [wordOfBytes, hiByte, BitVec.toNat_ofNat, BitVec.extractLsb'_toNat]
  omega

@[simp] theorem loByte_wordOfBytes (hi lo : Byte) : loByte (wordOfBytes hi lo) = lo := by
  apply BitVec.eq_of_toNat_eq
  have := hi.isLt
  have := lo.isLt
  simp only [wordOfBytes, loByte, BitVec.toNat_ofNat, BitVec.extractLsb'_toNat]
  omega

/-! ### Fields as numbers (R71) -/

theorem toNat_fieldN1 (w : Word) : (fieldN1 w).toNat = w.toNat / 0x1000 := by
  have := w.isLt
  simp only [fieldN1, BitVec.extractLsb'_toNat]
  omega

theorem val_fieldX (w : Word) : (nibbleReg (fieldX w)).val = w.toNat / 0x100 % 0x10 := by
  simp only [nibbleReg, fieldX, BitVec.extractLsb'_toNat]
  omega

theorem val_fieldY (w : Word) : (nibbleReg (fieldY w)).val = w.toNat / 0x10 % 0x10 := by
  simp only [nibbleReg, fieldY, BitVec.extractLsb'_toNat]
  omega

theorem toNat_fieldN (w : Word) : (fieldN w).toNat = w.toNat % 0x10 := by
  simp only [fieldN, BitVec.extractLsb'_toNat]
  omega

theorem toNat_fieldNN (w : Word) : (fieldNN w).toNat = w.toNat % 0x100 := by
  simp only [fieldNN, BitVec.extractLsb'_toNat]
  omega

theorem toNat_fieldNNN (w : Word) : (fieldNNN w).toNat = w.toNat % 0x1000 := by
  simp only [fieldNNN, BitVec.extractLsb'_toNat]
  omega

/-! ### Fields of a layout (R72) -/

theorem toNat_layoutNNN (c : Nibble) (nnn : Addr12) : (layoutNNN c nnn).toNat = c.toNat * 0x1000 + nnn.toNat := by
  have := c.isLt
  have := nnn.isLt
  simp only [layoutNNN, BitVec.toNat_ofNat]
  omega

theorem toNat_layoutXNN (c : Nibble) (x : RegIdx) (nn : Byte) :
    (layoutXNN c x nn).toNat = c.toNat * 0x1000 + x.val * 0x100 + nn.toNat := by
  have := c.isLt
  have := nn.isLt
  simp only [layoutXNN, BitVec.toNat_ofNat]
  omega

theorem toNat_layoutXYN (c : Nibble) (x y : RegIdx) (n : Nibble) :
    (layoutXYN c x y n).toNat = c.toNat * 0x1000 + x.val * 0x100 + y.val * 0x10 + n.toNat := by
  have := c.isLt
  have := n.isLt
  simp only [layoutXYN, BitVec.toNat_ofNat]
  omega

@[simp] theorem fieldN1_layoutNNN (c : Nibble) (nnn : Addr12) : fieldN1 (layoutNNN c nnn) = c := by
  apply BitVec.eq_of_toNat_eq
  have := nnn.isLt
  rw [toNat_fieldN1, toNat_layoutNNN]
  omega

@[simp] theorem fieldNNN_layoutNNN (c : Nibble) (nnn : Addr12) : fieldNNN (layoutNNN c nnn) = nnn := by
  apply BitVec.eq_of_toNat_eq
  have := nnn.isLt
  rw [toNat_fieldNNN, toNat_layoutNNN]
  omega

@[simp] theorem fieldN1_layoutXNN (c : Nibble) (x : RegIdx) (nn : Byte) : fieldN1 (layoutXNN c x nn) = c := by
  apply BitVec.eq_of_toNat_eq
  have := nn.isLt
  rw [toNat_fieldN1, toNat_layoutXNN]
  omega

@[simp] theorem fieldX_layoutXNN (c : Nibble) (x : RegIdx) (nn : Byte) :
    nibbleReg (fieldX (layoutXNN c x nn)) = x := by
  apply Fin.ext
  have := nn.isLt
  rw [val_fieldX, toNat_layoutXNN]
  omega

@[simp] theorem fieldNN_layoutXNN (c : Nibble) (x : RegIdx) (nn : Byte) : fieldNN (layoutXNN c x nn) = nn := by
  apply BitVec.eq_of_toNat_eq
  have := nn.isLt
  rw [toNat_fieldNN, toNat_layoutXNN]
  omega

@[simp] theorem fieldN1_layoutXYN (c : Nibble) (x y : RegIdx) (n : Nibble) : fieldN1 (layoutXYN c x y n) = c := by
  apply BitVec.eq_of_toNat_eq
  have := n.isLt
  rw [toNat_fieldN1, toNat_layoutXYN]
  omega

@[simp] theorem fieldX_layoutXYN (c : Nibble) (x y : RegIdx) (n : Nibble) :
    nibbleReg (fieldX (layoutXYN c x y n)) = x := by
  apply Fin.ext
  have := n.isLt
  rw [val_fieldX, toNat_layoutXYN]
  omega

@[simp] theorem fieldY_layoutXYN (c : Nibble) (x y : RegIdx) (n : Nibble) :
    nibbleReg (fieldY (layoutXYN c x y n)) = y := by
  apply Fin.ext
  have := n.isLt
  rw [val_fieldY, toNat_layoutXYN]
  omega

@[simp] theorem fieldN_layoutXYN (c : Nibble) (x y : RegIdx) (n : Nibble) : fieldN (layoutXYN c x y n) = n := by
  apply BitVec.eq_of_toNat_eq
  have := n.isLt
  rw [toNat_fieldN, toNat_layoutXYN]
  omega

/-! ### A word from its fields -/

theorem layoutNNN_of_fields (w : Word) : layoutNNN (fieldN1 w) (fieldNNN w) = w := by
  apply BitVec.eq_of_toNat_eq
  rw [toNat_layoutNNN, toNat_fieldN1, toNat_fieldNNN]
  omega

theorem layoutXNN_of_fields (w : Word) : layoutXNN (fieldN1 w) (nibbleReg (fieldX w)) (fieldNN w) = w := by
  apply BitVec.eq_of_toNat_eq
  rw [toNat_layoutXNN, toNat_fieldN1, val_fieldX, toNat_fieldNN]
  omega

theorem layoutXYN_of_fields (w : Word) :
    layoutXYN (fieldN1 w) (nibbleReg (fieldX w)) (nibbleReg (fieldY w)) (fieldN w) = w := by
  apply BitVec.eq_of_toNat_eq
  rw [toNat_layoutXYN, toNat_fieldN1, val_fieldX, val_fieldY, toNat_fieldN]
  omega

/-! ### The masks of the opcode map as field reads (R74, R75) -/

theorem and_maskClass (w : Word) : w &&& (0xF000 : Word) = (fieldN1 w).setWidth 16 <<< 12 := by
  apply BitVec.eq_of_getLsbD_eq
  intro i hi
  interval_cases i <;> simp [fieldN1]

theorem and_maskClassNibble (w : Word) :
    w &&& (0xF00F : Word) = (fieldN1 w).setWidth 16 <<< 12 ||| (fieldN w).setWidth 16 := by
  apply BitVec.eq_of_getLsbD_eq
  intro i hi
  interval_cases i <;> simp [fieldN1, fieldN]

theorem and_maskClassByte (w : Word) :
    w &&& (0xF0FF : Word) = (fieldN1 w).setWidth 16 <<< 12 ||| (fieldNN w).setWidth 16 := by
  apply BitVec.eq_of_getLsbD_eq
  intro i hi
  interval_cases i <;> simp [fieldN1, fieldNN]

theorem and_maskAll (w : Word) : w &&& (0xFFFF : Word) = w := by
  apply BitVec.eq_of_getLsbD_eq
  intro i hi
  interval_cases i <;> simp

/-- Numbers whose bits do not meet are added by a bitwise or. -/
theorem mul_two_pow_or (a b k : Nat) (h : b < 2 ^ k) : a * 2 ^ k ||| b = a * 2 ^ k + b := by
  rw [Nat.mul_comm, Nat.two_pow_add_eq_or_of_lt h]

theorem toNat_and_maskClass (w : Word) : (w &&& (0xF000 : Word)).toNat = w.toNat / 0x1000 * 0x1000 := by
  have := w.isLt
  rw [and_maskClass, BitVec.toNat_shiftLeft, BitVec.toNat_setWidth, toNat_fieldN1, Nat.shiftLeft_eq]
  omega

theorem toNat_and_maskClassNibble (w : Word) :
    (w &&& (0xF00F : Word)).toNat = w.toNat / 0x1000 * 0x1000 + w.toNat % 0x10 := by
  have := w.isLt
  rw [and_maskClassNibble, BitVec.toNat_or, ← and_maskClass, toNat_and_maskClass, BitVec.toNat_setWidth, toNat_fieldN,
    Nat.mod_eq_of_lt (by omega)]
  exact mul_two_pow_or (w.toNat / 0x1000) (w.toNat % 0x10) 12 (by omega)

theorem toNat_and_maskClassByte (w : Word) :
    (w &&& (0xF0FF : Word)).toNat = w.toNat / 0x1000 * 0x1000 + w.toNat % 0x100 := by
  have := w.isLt
  rw [and_maskClassByte, BitVec.toNat_or, ← and_maskClass, toNat_and_maskClass, BitVec.toNat_setWidth, toNat_fieldNN,
    Nat.mod_eq_of_lt (by omega)]
  exact mul_two_pow_or (w.toNat / 0x1000) (w.toNat % 0x100) 12 (by omega)

/-! ### Selecting a row (R74) -/

theorem selectedBy_class (p w : Word) :
    (⟨p, 0xF000⟩ : OpcodeRow).selectedBy w = true ↔ w.toNat / 0x1000 * 0x1000 = p.toNat := by
  show ((w &&& 0xF000) == p) = true ↔ _
  rw [beq_iff_eq, ← BitVec.toNat_inj, toNat_and_maskClass]

theorem selectedBy_classNibble (p w : Word) :
    (⟨p, 0xF00F⟩ : OpcodeRow).selectedBy w = true ↔ w.toNat / 0x1000 * 0x1000 + w.toNat % 0x10 = p.toNat := by
  show ((w &&& 0xF00F) == p) = true ↔ _
  rw [beq_iff_eq, ← BitVec.toNat_inj, toNat_and_maskClassNibble]

theorem selectedBy_classByte (p w : Word) :
    (⟨p, 0xF0FF⟩ : OpcodeRow).selectedBy w = true ↔ w.toNat / 0x1000 * 0x1000 + w.toNat % 0x100 = p.toNat := by
  show ((w &&& 0xF0FF) == p) = true ↔ _
  rw [beq_iff_eq, ← BitVec.toNat_inj, toNat_and_maskClassByte]

theorem selectedBy_all (p w : Word) : (⟨p, 0xFFFF⟩ : OpcodeRow).selectedBy w = true ↔ w = p := by
  show ((w &&& 0xFFFF) == p) = true ↔ _
  rw [beq_iff_eq, and_maskAll]

/-- A word laid out as `NNN` selects the row of its class. -/
theorem selectedBy_layoutNNN (c : Nibble) (nnn : Addr12) (p : Word) (hp : p.toNat = c.toNat * 0x1000) :
    (⟨p, 0xF000⟩ : OpcodeRow).selectedBy (layoutNNN c nnn) = true := by
  have := nnn.isLt
  rw [selectedBy_class, toNat_layoutNNN]
  omega

/-- A word laid out as `XNN` selects the row of its class. -/
theorem selectedBy_layoutXNN (c : Nibble) (x : RegIdx) (nn : Byte) (p : Word) (hp : p.toNat = c.toNat * 0x1000) :
    (⟨p, 0xF000⟩ : OpcodeRow).selectedBy (layoutXNN c x nn) = true := by
  have := nn.isLt
  rw [selectedBy_class, toNat_layoutXNN]
  omega

/-- A word laid out as `XYN` selects the row of its class. -/
theorem selectedBy_layoutXYN (c : Nibble) (x y : RegIdx) (n : Nibble) (p : Word) (hp : p.toNat = c.toNat * 0x1000) :
    (⟨p, 0xF000⟩ : OpcodeRow).selectedBy (layoutXYN c x y n) = true := by
  have := n.isLt
  rw [selectedBy_class, toNat_layoutXYN]
  omega

/-- A word laid out as `XY`, its last nibble fixed, selects the row of its class and last nibble. -/
theorem selectedBy_layoutXY (c : Nibble) (x y : RegIdx) (n : Nibble) (p : Word)
    (hp : p.toNat = c.toNat * 0x1000 + n.toNat) :
    (⟨p, 0xF00F⟩ : OpcodeRow).selectedBy (layoutXYN c x y n) = true := by
  have := n.isLt
  rw [selectedBy_classNibble, toNat_layoutXYN]
  omega

/-- A word laid out as `X`, its low byte fixed, selects the row of its class and low byte. -/
theorem selectedBy_layoutX (c : Nibble) (x : RegIdx) (nn : Byte) (p : Word)
    (hp : p.toNat = c.toNat * 0x1000 + nn.toNat) :
    (⟨p, 0xF0FF⟩ : OpcodeRow).selectedBy (layoutXNN c x nn) = true := by
  have := nn.isLt
  rw [selectedBy_classByte, toNat_layoutXNN]
  omega

/-! ### Every instruction stands in a row of the table (R75) -/

/-- The row of an instruction is one of the 35. -/
theorem row_mem_opcodeRows (i : Instr) : i.row ∈ opcodeRows := by
  cases i <;> simp [Instr.row, opcodeRows]

end Sys2Proof
end

