-- ==== Sys2Proof/Laws/Memory.lean ====
section
/-! SUPPORT. The laws of memory: read after write, the canonical form and its preservation, runs of bytes, and the checked
accesses. -/

namespace Sys2Proof.Machine

/-! ### One byte -/

@[simp] theorem Memory.read_nil (a : Nat) : Memory.read [] a = unlisted a := rfl

theorem Memory.read_cons (k : Nat) (c : Byte) (m : Memory) (a : Nat) :
    Memory.read ((k, c) :: m) a = if a = k then c else m.read a := rfl

/-- Below its first possible address a canonical memory reads as unlisted. -/
theorem Memory.read_below {lo : Nat} {m : Memory} (h : Memory.wfFrom lo m = true) {a : Nat} (ha : a < lo) :
    m.read a = unlisted a := by
  induction m generalizing lo with
  | nil => rfl
  | cons kc m ih =>
    obtain ⟨k, c⟩ := kc
    simp only [Memory.wfFrom, Bool.and_eq_true, decide_eq_true_eq] at h
    rw [Memory.read_cons, if_neg (by omega)]
    exact ih h.2 (by omega)

/-- A canonical memory stays canonical when the bound on its addresses is lowered. -/
theorem Memory.wfFrom_mono {lo lo' : Nat} {m : Memory} (h : Memory.wfFrom lo m = true) (hl : lo' ≤ lo) :
    Memory.wfFrom lo' m = true := by
  cases m with
  | nil => rfl
  | cons kc m =>
    simp only [Memory.wfFrom, Bool.and_eq_true, decide_eq_true_eq] at h ⊢
    exact ⟨⟨⟨by omega, h.1.1.2⟩, h.1.2⟩, h.2⟩

/-- Read after write (R52, R58): the written address gives the written byte, every other address what it gave. On a
canonical memory, whose first entry for an address is its only one. -/
theorem Memory.read_write {lo : Nat} {m : Memory} (h : Memory.wfFrom lo m = true) (a c : Nat) (b : Byte) :
    (m.write a b).read c = if c = a then b else m.read c := by
  induction m generalizing lo with
  | nil =>
    by_cases hb : b = unlisted a <;> by_cases hc : c = a <;> simp [Memory.write, Memory.read, hb, hc]
  | cons kc m ih =>
    obtain ⟨k, d⟩ := kc
    have hw := h
    simp only [Memory.wfFrom, Bool.and_eq_true, decide_eq_true_eq] at hw
    simp only [Memory.write]
    split
    · split
      · split
        · subst c
          rw [Memory.read_cons, if_neg (by omega), Memory.read_below hw.2 (by omega)]
          simp_all
        · rfl
      · rw [Memory.read_cons]
    · split
      · split
        · by_cases hc : c = a
          · subst c
            rw [if_pos rfl, Memory.read_below hw.2 (by omega)]
            simp_all
          · rw [if_neg hc, Memory.read_cons, if_neg (by omega)]
        · by_cases hc : c = a
          · simp [Memory.read_cons, hc]
          · rw [Memory.read_cons, if_neg hc, if_neg hc, Memory.read_cons, if_neg (by omega)]
      · rw [Memory.read_cons, ih hw.2, Memory.read_cons]
        by_cases hc : c = a
        · subst c
          rw [if_neg (by omega), if_pos rfl, if_pos rfl]
        · simp only [if_neg hc]

/-- A write inside memory keeps the canonical form. -/
theorem Memory.wfFrom_write {lo : Nat} {m : Memory} (h : Memory.wfFrom lo m = true) {a : Nat} (ha : a < 4096)
    (hl : lo ≤ a) (b : Byte) : Memory.wfFrom lo (m.write a b) = true := by
  induction m generalizing lo with
  | nil =>
    simp only [Memory.write]
    split
    · rfl
    · simp_all [Memory.wfFrom]
  | cons kc m ih =>
    obtain ⟨k, c⟩ := kc
    have hw := h
    simp only [Memory.wfFrom, Bool.and_eq_true, decide_eq_true_eq] at hw
    simp only [Memory.write]
    split
    · split
      · exact h
      · simp only [Memory.wfFrom, Bool.and_eq_true, decide_eq_true_eq]
        exact ⟨⟨⟨hl, ha⟩, by assumption⟩, ⟨⟨by omega, hw.1.1.2⟩, hw.1.2⟩, hw.2⟩
    · split
      · subst a
        split
        · exact Memory.wfFrom_mono hw.2 (by omega)
        · simp only [Memory.wfFrom, Bool.and_eq_true, decide_eq_true_eq]
          exact ⟨⟨⟨hl, ha⟩, by assumption⟩, hw.2⟩
      · simp only [Memory.wfFrom, Bool.and_eq_true, decide_eq_true_eq]
        exact ⟨⟨⟨hw.1.1.1, hw.1.1.2⟩, hw.1.2⟩, ih hw.2 (by omega)⟩

/-- `mem[a] <- b` keeps the canonical form (R52). -/
theorem Memory.wf_write {m : Memory} (h : m.wf = true) {a : Nat} (ha : a < 4096) (b : Byte) : (m.write a b).wf = true :=
  Memory.wfFrom_write h ha (Nat.zero_le a) b

/-- The reset memory is canonical. -/
theorem reset_mem_wf : State.reset.mem.wf = true := rfl

/-! ### Runs of bytes -/

@[simp] theorem Memory.length_readRun (m : Memory) (a k : Nat) : (m.readRun a k).length = k := by
  induction k generalizing a with
  | zero => rfl
  | succ k ih => simp [Memory.readRun, ih]

theorem Memory.getElem_readRun (m : Memory) (a k j : Nat) (h : j < (m.readRun a k).length) :
    (m.readRun a k)[j] = m.read (a + j) := by
  induction k generalizing a j with
  | zero => simp at h
  | succ k ih =>
    cases j with
    | zero => rfl
    | succ j =>
      have := ih (a + 1) j (by simpa using h)
      simp only [Memory.readRun, List.getElem_cons_succ, this]
      congr 1
      omega

/-- A run of writes inside memory keeps the canonical form. -/
theorem Memory.wf_writeRun {m : Memory} (h : m.wf = true) (a : Nat) (bs : List Byte) (hr : a + bs.length ≤ 4096) :
    (m.writeRun a bs).wf = true := by
  induction bs generalizing m a with
  | nil => exact h
  | cons b bs ih =>
    simp only [List.length_cons] at hr
    exact ih (Memory.wf_write h (by omega) b) (a + 1) (by omega)

/-- What a byte reads as after a run of writes: the byte of the run that fell on it, else what it read as before. -/
theorem Memory.read_writeRun {m : Memory} (h : m.wf = true) (a : Nat) (bs : List Byte) (hr : a + bs.length ≤ 4096)
    (c : Nat) :
    (m.writeRun a bs).read c = if hc : a ≤ c ∧ c < a + bs.length then bs[c - a]'(by omega) else m.read c := by
  induction bs generalizing m a with
  | nil => rw [dif_neg (by simp only [List.length_nil]; omega)]; rfl
  | cons b bs ih =>
    simp only [List.length_cons] at hr
    have hih := ih (Memory.wf_write h (a := a) (by omega) b) (a + 1) (by omega)
    simp only [Memory.writeRun, hih, Memory.read_write h, List.length_cons]
    by_cases h1 : a + 1 ≤ c ∧ c < a + 1 + bs.length
    · rw [dif_pos h1, dif_pos (by omega), List.getElem_cons, dif_neg (by omega)]
      congr 1
    · rw [dif_neg h1]
      by_cases h2 : c = a
      · subst h2
        simp
      · rw [if_neg h2, dif_neg (by omega)]

/-- A write leaves every other address as it was, on any memory, canonical or not. -/
theorem Memory.read_write_ne (m : Memory) {a c : Nat} (b : Byte) (hc : c ≠ a) : (m.write a b).read c = m.read c := by
  induction m with
  | nil => by_cases hb : b = unlisted a <;> simp [Memory.write, Memory.read, hb, hc]
  | cons kd m ih =>
    obtain ⟨k, d⟩ := kd
    simp only [Memory.write]
    split
    · split
      · rfl
      · rw [Memory.read_cons, if_neg hc]
    · split
      · subst a
        split <;> simp [Memory.read_cons, hc]
      · rw [Memory.read_cons, ih, Memory.read_cons]

/-- A run of writes leaves every address outside the run as it was, on any memory. -/
theorem Memory.read_writeRun_outside (m : Memory) (a : Nat) (bs : List Byte) {c : Nat}
    (hc : ¬ (a ≤ c ∧ c < a + bs.length)) : (m.writeRun a bs).read c = m.read c := by
  induction bs generalizing m a with
  | nil => rfl
  | cons b bs ih =>
    simp only [List.length_cons] at hc
    rw [Memory.writeRun, ih _ _ (by omega), Memory.read_write_ne m b (by omega)]

/-! ### Checked accesses (R53) -/

theorem inRange_iff (base k : Nat) : inRange base k = true ↔ k = 0 ∨ base + k ≤ 4096 := by
  simp [inRange]

/-- Everything a checked read can do. -/
theorem Memory.readBytes_cases (m : Memory) (base k : Nat) :
    ((k = 0 ∨ base + k ≤ 4096) ∧ m.readBytes base k = some (m.readRun base k)) ∨
    ((1 ≤ k ∧ 4096 < base + k) ∧ m.readBytes base k = none) := by
  by_cases h : inRange base k = true
  · exact .inl ⟨(inRange_iff base k).mp h, by simp [Memory.readBytes, h]⟩
  · have h' := (inRange_iff base k).not.mp h
    exact .inr ⟨by omega, by simp [Memory.readBytes, h]⟩

/-- Everything a checked write can do. -/
theorem Memory.writeBytes_cases (m : Memory) (base : Nat) (bs : List Byte) :
    ((bs.length = 0 ∨ base + bs.length ≤ 4096) ∧ m.writeBytes base bs = some (m.writeRun base bs)) ∨
    ((1 ≤ bs.length ∧ 4096 < base + bs.length) ∧ m.writeBytes base bs = none) := by
  by_cases h : inRange base bs.length = true
  · exact .inl ⟨(inRange_iff base bs.length).mp h, by simp [Memory.writeBytes, h]⟩
  · have h' := (inRange_iff base bs.length).not.mp h
    exact .inr ⟨by omega, by simp [Memory.writeBytes, h]⟩

/-- A checked write keeps the canonical form. -/
theorem Memory.wf_writeBytes {m m' : Memory} (h : m.wf = true) {base : Nat} {bs : List Byte}
    (hw : m.writeBytes base bs = some m') : m'.wf = true := by
  rcases Memory.writeBytes_cases m base bs with ⟨hr, he⟩ | ⟨_, he⟩
  · rw [he] at hw
    cases hw
    rcases hr with h0 | hr
    · rw [List.length_eq_zero_iff] at h0
      subst h0
      exact h
    · exact Memory.wf_writeRun h base bs hr
  · rw [he] at hw
    cases hw

/-- The one read of a list-held memory that needs no canonical form: one written address read back at once. -/
theorem Memory.read_write_self (m : Memory) (a : Nat) (b : Byte) (h : m.wf = true) : (m.write a b).read a = b := by
  rw [Memory.read_write h, if_pos rfl]

/-! ### Accesses based on `I` (R146) -/

/-- Everything a data read can do. -/
theorem readData_cases (s : State) (k : Nat) :
    ((k = 0 ∨ s.i.toNat + k ≤ 4096) ∧ s.readData k = some (s.mem.readRun s.i.toNat k)) ∨
    ((1 ≤ k ∧ 4096 < s.i.toNat + k) ∧ s.readData k = none) :=
  Memory.readBytes_cases s.mem s.i.toNat k

/-- Everything a data write can do. -/
theorem writeData_cases (s : State) (bs : List Byte) :
    ((bs.length = 0 ∨ s.i.toNat + bs.length ≤ 4096) ∧
      s.writeData bs = some { s with mem := s.mem.writeRun s.i.toNat bs }) ∨
    ((1 ≤ bs.length ∧ 4096 < s.i.toNat + bs.length) ∧ s.writeData bs = none) := by
  rcases Memory.writeBytes_cases s.mem s.i.toNat bs with ⟨h, he⟩ | ⟨h, he⟩
  · exact .inl ⟨h, by simp [State.writeData, he]⟩
  · exact .inr ⟨h, by simp [State.writeData, he]⟩

@[simp] theorem length_bcdDigits (b : Byte) : (bcdDigits b).length = 3 := rfl

@[simp] theorem length_regsUpTo (s : State) (x : RegIdx) : (s.regsUpTo x).length = x.val + 1 := by
  simp only [State.regsUpTo, List.length_take, Vector.length_toList]
  omega

/-- The bytes of a register run are the registers, lowest first (R144). -/
theorem getElem_regsUpTo (s : State) (x : RegIdx) (k : Nat) (h : k < (s.regsUpTo x).length) :
    (s.regsUpTo x)[k] = s.reg ⟨k, by rw [length_regsUpTo] at h; omega⟩ := by
  simp [State.regsUpTo, State.reg]

end Sys2Proof.Machine
end

