-- ==== Sys2Proof/Laws/State.lean ====
section
/-! SUPPORT. One lemma per field per update of State, true by rfl, and the reads of registers through each update. -/

namespace Sys2Proof.Machine

variable (s : State)

/-! ### setReg -/

@[simp] theorem setReg_v (r : RegIdx) (b : Byte) : (s.setReg r b).v = s.v.set r b := rfl
@[simp] theorem setReg_i (r : RegIdx) (b : Byte) : (s.setReg r b).i = s.i := rfl
@[simp] theorem setReg_pc (r : RegIdx) (b : Byte) : (s.setReg r b).pc = s.pc := rfl
@[simp] theorem setReg_stack (r : RegIdx) (b : Byte) : (s.setReg r b).stack = s.stack := rfl
@[simp] theorem setReg_sp (r : RegIdx) (b : Byte) : (s.setReg r b).sp = s.sp := rfl
@[simp] theorem setReg_dt (r : RegIdx) (b : Byte) : (s.setReg r b).dt = s.dt := rfl
@[simp] theorem setReg_st (r : RegIdx) (b : Byte) : (s.setReg r b).st = s.st := rfl
@[simp] theorem setReg_key (r : RegIdx) (b : Byte) : (s.setReg r b).key = s.key := rfl
@[simp] theorem setReg_px (r : RegIdx) (b : Byte) : (s.setReg r b).px = s.px := rfl
@[simp] theorem setReg_mem (r : RegIdx) (b : Byte) : (s.setReg r b).mem = s.mem := rfl
@[simp] theorem setReg_dbg (r : RegIdx) (b : Byte) : (s.setReg r b).dbg = s.dbg := rfl
@[simp] theorem setReg_report (r : RegIdx) (b : Byte) : (s.setReg r b).report = s.report := rfl
@[simp] theorem setReg_trace (r : RegIdx) (b : Byte) : (s.setReg r b).trace = s.trace := rfl
@[simp] theorem setReg_rndIn (r : RegIdx) (b : Byte) : (s.setReg r b).rndIn = s.rndIn := rfl
@[simp] theorem setReg_rndDrawn (r : RegIdx) (b : Byte) : (s.setReg r b).rndDrawn = s.rndDrawn := rfl

/-! ### setPc -/

@[simp] theorem setPc_v (t : Word) : (s.setPc t).v = s.v := rfl
@[simp] theorem setPc_i (t : Word) : (s.setPc t).i = s.i := rfl
@[simp] theorem setPc_pc (t : Word) : (s.setPc t).pc = t := rfl
@[simp] theorem setPc_stack (t : Word) : (s.setPc t).stack = s.stack := rfl
@[simp] theorem setPc_sp (t : Word) : (s.setPc t).sp = s.sp := rfl
@[simp] theorem setPc_dt (t : Word) : (s.setPc t).dt = s.dt := rfl
@[simp] theorem setPc_st (t : Word) : (s.setPc t).st = s.st := rfl
@[simp] theorem setPc_key (t : Word) : (s.setPc t).key = s.key := rfl
@[simp] theorem setPc_px (t : Word) : (s.setPc t).px = s.px := rfl
@[simp] theorem setPc_mem (t : Word) : (s.setPc t).mem = s.mem := rfl
@[simp] theorem setPc_dbg (t : Word) : (s.setPc t).dbg = s.dbg := rfl
@[simp] theorem setPc_report (t : Word) : (s.setPc t).report = s.report := rfl
@[simp] theorem setPc_trace (t : Word) : (s.setPc t).trace = s.trace := rfl
@[simp] theorem setPc_rndIn (t : Word) : (s.setPc t).rndIn = s.rndIn := rfl
@[simp] theorem setPc_rndDrawn (t : Word) : (s.setPc t).rndDrawn = s.rndDrawn := rfl

/-! ### setI -/

@[simp] theorem setI_v (t : Word) : (s.setI t).v = s.v := rfl
@[simp] theorem setI_i (t : Word) : (s.setI t).i = t := rfl
@[simp] theorem setI_pc (t : Word) : (s.setI t).pc = s.pc := rfl
@[simp] theorem setI_stack (t : Word) : (s.setI t).stack = s.stack := rfl
@[simp] theorem setI_sp (t : Word) : (s.setI t).sp = s.sp := rfl
@[simp] theorem setI_dt (t : Word) : (s.setI t).dt = s.dt := rfl
@[simp] theorem setI_st (t : Word) : (s.setI t).st = s.st := rfl
@[simp] theorem setI_key (t : Word) : (s.setI t).key = s.key := rfl
@[simp] theorem setI_px (t : Word) : (s.setI t).px = s.px := rfl
@[simp] theorem setI_mem (t : Word) : (s.setI t).mem = s.mem := rfl
@[simp] theorem setI_dbg (t : Word) : (s.setI t).dbg = s.dbg := rfl
@[simp] theorem setI_report (t : Word) : (s.setI t).report = s.report := rfl
@[simp] theorem setI_trace (t : Word) : (s.setI t).trace = s.trace := rfl
@[simp] theorem setI_rndIn (t : Word) : (s.setI t).rndIn = s.rndIn := rfl
@[simp] theorem setI_rndDrawn (t : Word) : (s.setI t).rndDrawn = s.rndDrawn := rfl

/-! ### skip -/

@[simp] theorem skip_v : (s.skip).v = s.v := rfl
@[simp] theorem skip_i : (s.skip).i = s.i := rfl
@[simp] theorem skip_pc : (s.skip).pc = s.pc + 2 := rfl
@[simp] theorem skip_stack : (s.skip).stack = s.stack := rfl
@[simp] theorem skip_sp : (s.skip).sp = s.sp := rfl
@[simp] theorem skip_dt : (s.skip).dt = s.dt := rfl
@[simp] theorem skip_st : (s.skip).st = s.st := rfl
@[simp] theorem skip_key : (s.skip).key = s.key := rfl
@[simp] theorem skip_px : (s.skip).px = s.px := rfl
@[simp] theorem skip_mem : (s.skip).mem = s.mem := rfl
@[simp] theorem skip_dbg : (s.skip).dbg = s.dbg := rfl
@[simp] theorem skip_report : (s.skip).report = s.report := rfl
@[simp] theorem skip_trace : (s.skip).trace = s.trace := rfl
@[simp] theorem skip_rndIn : (s.skip).rndIn = s.rndIn := rfl
@[simp] theorem skip_rndDrawn : (s.skip).rndDrawn = s.rndDrawn := rfl

/-! ### quietOutputs -/

@[simp] theorem quietOutputs_v : (s.quietOutputs).v = s.v := rfl
@[simp] theorem quietOutputs_i : (s.quietOutputs).i = s.i := rfl
@[simp] theorem quietOutputs_pc : (s.quietOutputs).pc = s.pc := rfl
@[simp] theorem quietOutputs_stack : (s.quietOutputs).stack = s.stack := rfl
@[simp] theorem quietOutputs_sp : (s.quietOutputs).sp = s.sp := rfl
@[simp] theorem quietOutputs_dt : (s.quietOutputs).dt = s.dt := rfl
@[simp] theorem quietOutputs_st : (s.quietOutputs).st = s.st := rfl
@[simp] theorem quietOutputs_key : (s.quietOutputs).key = s.key := rfl
@[simp] theorem quietOutputs_px : (s.quietOutputs).px = s.px := rfl
@[simp] theorem quietOutputs_mem : (s.quietOutputs).mem = s.mem := rfl
@[simp] theorem quietOutputs_dbg : (s.quietOutputs).dbg = s.dbg := rfl
@[simp] theorem quietOutputs_report : (s.quietOutputs).report = none := rfl
@[simp] theorem quietOutputs_trace : (s.quietOutputs).trace = none := rfl
@[simp] theorem quietOutputs_rndIn : (s.quietOutputs).rndIn = s.rndIn := rfl
@[simp] theorem quietOutputs_rndDrawn : (s.quietOutputs).rndDrawn = s.rndDrawn := rfl

/-! ### fetched -/

@[simp] theorem fetched_v (w : Word) : (s.fetched w).v = s.v := rfl
@[simp] theorem fetched_i (w : Word) : (s.fetched w).i = s.i := rfl
@[simp] theorem fetched_pc (w : Word) : (s.fetched w).pc = s.pc + 2 := rfl
@[simp] theorem fetched_stack (w : Word) : (s.fetched w).stack = s.stack := rfl
@[simp] theorem fetched_sp (w : Word) : (s.fetched w).sp = s.sp := rfl
@[simp] theorem fetched_dt (w : Word) : (s.fetched w).dt = s.dt := rfl
@[simp] theorem fetched_st (w : Word) : (s.fetched w).st = s.st := rfl
@[simp] theorem fetched_key (w : Word) : (s.fetched w).key = s.key := rfl
@[simp] theorem fetched_px (w : Word) : (s.fetched w).px = s.px := rfl
@[simp] theorem fetched_mem (w : Word) : (s.fetched w).mem = s.mem := rfl
@[simp] theorem fetched_dbg (w : Word) : (s.fetched w).dbg = s.dbg := rfl
@[simp] theorem fetched_report (w : Word) : (s.fetched w).report = none := rfl
@[simp] theorem fetched_trace (w : Word) : (s.fetched w).trace = (if s.dbg then some ⟨s.pc, w⟩ else none) := rfl
@[simp] theorem fetched_rndIn (w : Word) : (s.fetched w).rndIn = s.rndIn := rfl
@[simp] theorem fetched_rndDrawn (w : Word) : (s.fetched w).rndDrawn = s.rndDrawn := rfl

/-! ### setFlag -/

@[simp] theorem setFlag_v (f : Bool) : (s.setFlag f).v = s.v.set 15 (flagByte f) := rfl
@[simp] theorem setFlag_i (f : Bool) : (s.setFlag f).i = s.i := rfl
@[simp] theorem setFlag_pc (f : Bool) : (s.setFlag f).pc = s.pc := rfl
@[simp] theorem setFlag_stack (f : Bool) : (s.setFlag f).stack = s.stack := rfl
@[simp] theorem setFlag_sp (f : Bool) : (s.setFlag f).sp = s.sp := rfl
@[simp] theorem setFlag_dt (f : Bool) : (s.setFlag f).dt = s.dt := rfl
@[simp] theorem setFlag_st (f : Bool) : (s.setFlag f).st = s.st := rfl
@[simp] theorem setFlag_key (f : Bool) : (s.setFlag f).key = s.key := rfl
@[simp] theorem setFlag_px (f : Bool) : (s.setFlag f).px = s.px := rfl
@[simp] theorem setFlag_mem (f : Bool) : (s.setFlag f).mem = s.mem := rfl
@[simp] theorem setFlag_dbg (f : Bool) : (s.setFlag f).dbg = s.dbg := rfl
@[simp] theorem setFlag_report (f : Bool) : (s.setFlag f).report = s.report := rfl
@[simp] theorem setFlag_trace (f : Bool) : (s.setFlag f).trace = s.trace := rfl
@[simp] theorem setFlag_rndIn (f : Bool) : (s.setFlag f).rndIn = s.rndIn := rfl
@[simp] theorem setFlag_rndDrawn (f : Bool) : (s.setFlag f).rndDrawn = s.rndDrawn := rfl

/-! ### tickTimers -/

@[simp] theorem tickTimers_v : (s.tickTimers).v = s.v := rfl
@[simp] theorem tickTimers_i : (s.tickTimers).i = s.i := rfl
@[simp] theorem tickTimers_pc : (s.tickTimers).pc = s.pc := rfl
@[simp] theorem tickTimers_stack : (s.tickTimers).stack = s.stack := rfl
@[simp] theorem tickTimers_sp : (s.tickTimers).sp = s.sp := rfl
@[simp] theorem tickTimers_dt : (s.tickTimers).dt = tickDown s.dt := rfl
@[simp] theorem tickTimers_st : (s.tickTimers).st = tickDown s.st := rfl
@[simp] theorem tickTimers_key : (s.tickTimers).key = s.key := rfl
@[simp] theorem tickTimers_px : (s.tickTimers).px = s.px := rfl
@[simp] theorem tickTimers_mem : (s.tickTimers).mem = s.mem := rfl
@[simp] theorem tickTimers_dbg : (s.tickTimers).dbg = s.dbg := rfl
@[simp] theorem tickTimers_report : (s.tickTimers).report = s.report := rfl
@[simp] theorem tickTimers_trace : (s.tickTimers).trace = s.trace := rfl
@[simp] theorem tickTimers_rndIn : (s.tickTimers).rndIn = s.rndIn := rfl
@[simp] theorem tickTimers_rndDrawn : (s.tickTimers).rndDrawn = s.rndDrawn := rfl

/-! ### setTrace -/

@[simp] theorem setTrace_v (on : Bool) : (s.setTrace on).v = s.v := rfl
@[simp] theorem setTrace_i (on : Bool) : (s.setTrace on).i = s.i := rfl
@[simp] theorem setTrace_pc (on : Bool) : (s.setTrace on).pc = s.pc := rfl
@[simp] theorem setTrace_stack (on : Bool) : (s.setTrace on).stack = s.stack := rfl
@[simp] theorem setTrace_sp (on : Bool) : (s.setTrace on).sp = s.sp := rfl
@[simp] theorem setTrace_dt (on : Bool) : (s.setTrace on).dt = s.dt := rfl
@[simp] theorem setTrace_st (on : Bool) : (s.setTrace on).st = s.st := rfl
@[simp] theorem setTrace_key (on : Bool) : (s.setTrace on).key = s.key := rfl
@[simp] theorem setTrace_px (on : Bool) : (s.setTrace on).px = s.px := rfl
@[simp] theorem setTrace_mem (on : Bool) : (s.setTrace on).mem = s.mem := rfl
@[simp] theorem setTrace_dbg (on : Bool) : (s.setTrace on).dbg = on := rfl
@[simp] theorem setTrace_report (on : Bool) : (s.setTrace on).report = s.report := rfl
@[simp] theorem setTrace_trace (on : Bool) : (s.setTrace on).trace = s.trace := rfl
@[simp] theorem setTrace_rndIn (on : Bool) : (s.setTrace on).rndIn = s.rndIn := rfl
@[simp] theorem setTrace_rndDrawn (on : Bool) : (s.setTrace on).rndDrawn = s.rndDrawn := rfl

@[simp] theorem setPc_reg (t : Word) (q : RegIdx) : (s.setPc t).reg q = s.reg q := rfl
@[simp] theorem setI_reg (t : Word) (q : RegIdx) : (s.setI t).reg q = s.reg q := rfl
@[simp] theorem skip_reg (q : RegIdx) : (s.skip).reg q = s.reg q := rfl
@[simp] theorem quietOutputs_reg (q : RegIdx) : (s.quietOutputs).reg q = s.reg q := rfl
@[simp] theorem fetched_reg (w : Word) (q : RegIdx) : (s.fetched w).reg q = s.reg q := rfl
@[simp] theorem tickTimers_reg (q : RegIdx) : (s.tickTimers).reg q = s.reg q := rfl
@[simp] theorem setTrace_reg (on : Bool) (q : RegIdx) : (s.setTrace on).reg q = s.reg q := rfl

/-- Reading a register after a register write (R8, R20). -/
@[simp] theorem setReg_reg (r q : RegIdx) (b : Byte) : (s.setReg r b).reg q = if q = r then b else s.reg q := by
  simp only [State.reg, State.setReg, Fin.getElem_fin, Vector.getElem_set, Fin.ext_iff, eq_comm]

@[simp] theorem setFlag_reg (f : Bool) (q : RegIdx) :
    (s.setFlag f).reg q = if q = flagReg then flagByte f else s.reg q := by
  simp [State.setFlag]

/-- A register write is in no other part: the read of a register depends on `v` only. -/
theorem reg_congr {t : State} (h : t.v = s.v) (q : RegIdx) : t.reg q = s.reg q := by
  simp [State.reg, h]

end Sys2Proof.Machine
end

