-- ==== Sys2Proof/Laws/Ops.lean ====
section
/-! SUPPORT. For each shared operation, what it can do, said once; and the frame vocabulary of Safety. -/

namespace Sys2Proof.Machine

/-! ### Errors (R207 to R210) -/

/-- Everything an error does: the kind is reported, every other field stays. -/
theorem raise_eq (e : ErrorKind) (s : State) : raise e s = .next { s with report := some e } := rfl

/-! ### Fetch (R54) -/

/-- Everything a fetch can do. -/
theorem fetchWord_cases (s : State) :
    (s.pc.toNat ≤ 0xFFE ∧
      s.fetchWord = some (wordOfBytes (s.mem.read s.pc.toNat) (s.mem.read (s.pc.toNat + 1)))) ∨
    (0xFFE < s.pc.toNat ∧ s.fetchWord = none) := by
  rcases Memory.readBytes_cases s.mem s.pc.toNat 2 with ⟨h, he⟩ | ⟨h, he⟩
  · exact .inl ⟨by omega, by simp [State.fetchWord, he, Memory.readRun]⟩
  · exact .inr ⟨by omega, by simp [State.fetchWord, he]⟩

/-! ### Skips (R110) -/

theorem skipIf_eq (s : State) (c : Bool) : s.skipIf c = s.setPc (if c then s.pc + 2 else s.pc) := by
  cases c <;> rfl

/-! ### Call stack (R29) -/

/-- Everything a push can do. -/
theorem push_cases (s : State) (a : Word) :
    (∃ h : s.sp.val < 16, s.push a = some { s with stack := s.stack.set s.sp.val a, sp := ⟨s.sp.val + 1, by omega⟩ }) ∨
    (s.sp.val = 16 ∧ s.push a = none) := by
  by_cases h : s.sp.val < 16
  · exact .inl ⟨h, by simp [State.push, h]⟩
  · exact .inr ⟨by omega, by simp [State.push, h]⟩

/-- Everything a pop can do. -/
theorem pop_cases (s : State) :
    (∃ h : 0 < s.sp.val,
      s.pop = some (s.stack[s.sp.val - 1]'(by omega), { s with sp := ⟨s.sp.val - 1, by omega⟩ })) ∨
    (s.sp.val = 0 ∧ s.pop = none) := by
  by_cases h : 0 < s.sp.val
  · exact .inl ⟨h, by simp [State.pop, h]⟩
  · exact .inr ⟨by omega, by simp [State.pop, h]⟩

/-! ### Keys (R162, R164) -/

/-- Everything a key lookup can do under this model's policy. -/
theorem lookupKey_cases (key : Vector Bool 16) (k : Byte) :
    (∃ h : k.toNat < 16, lookupKey keyIndexPolicy key k = some key[k.toNat]) ∨
    (15 < k.toNat ∧ lookupKey keyIndexPolicy key k = none) := by
  by_cases h : k.toNat < 16
  · exact .inl ⟨h, by simp [lookupKey, h]⟩
  · exact .inr ⟨by omega, by simp [lookupKey, h, keyIndexPolicy]⟩

/-- Everything the scan of the keys can find: the lowest key down, or no key down. -/
theorem firstKeyDown_cases (key : Vector Bool 16) :
    (∃ k : Fin 16, firstKeyDown key = some k.val ∧ key[k] = true ∧ ∀ j : Fin 16, j < k → key[j] = false) ∨
    (firstKeyDown key = none ∧ ∀ j : Fin 16, key[j] = false) := by
  cases h : firstKeyDown key with
  | none =>
    refine .inr ⟨rfl, fun j => ?_⟩
    rw [firstKeyDown, List.findIdx?_eq_none_iff] at h
    have := h key[j] (by simp)
    simpa using this
  | some k =>
    rw [firstKeyDown, List.findIdx?_eq_some_iff_getElem] at h
    obtain ⟨hk, ht, hlt⟩ := h
    have hk' : k < 16 := by simpa using hk
    refine .inl ⟨⟨k, hk'⟩, rfl, by simpa using ht, fun j hj => ?_⟩
    have := hlt j.val hj
    simpa using this

/-! ### Random source (R133) -/

/-- Everything a draw of a random byte can do. -/
theorem drawRnd_cases (s : State) :
    (∃ b bs, s.rndIn = b :: bs ∧ s.drawRnd = (b, { s with rndIn := bs, rndDrawn := s.rndDrawn + 1 })) ∨
    (s.rndIn = [] ∧ s.drawRnd = (Config.freeRnd s.rndDrawn, { s with rndDrawn := s.rndDrawn + 1 })) := by
  unfold State.drawRnd
  split
  · exact .inl ⟨_, _, by assumption, rfl⟩
  · exact .inr ⟨by assumption, rfl⟩

/-! ### Runs of registers (R145) -/

/-- What a register holds after a run of loads: the byte of the run that fell on it, else what it held. -/
theorem setRegsFrom_reg (bs : List Byte) (s : State) (r : Nat) (q : RegIdx) :
    (s.setRegsFrom r bs).reg q =
      if h : r ≤ q.val ∧ q.val < r + bs.length then bs[q.val - r]'(by omega) else s.reg q := by
  induction bs generalizing s r with
  | nil => rw [dif_neg (by simp only [List.length_nil]; omega)]; rfl
  | cons b bs ih =>
    simp only [State.setRegsFrom, ih, List.length_cons]
    by_cases h1 : r + 1 ≤ q.val ∧ q.val < r + 1 + bs.length
    · rw [dif_pos h1, dif_pos (by omega), List.getElem_cons, dif_neg (by omega)]
      congr 1
    · rw [dif_neg h1]
      by_cases h2 : q.val = r
      · have hr : r < 16 := by omega
        have hq : q = ⟨r, hr⟩ := Fin.ext h2
        subst hq
        simp [hr]
      · have hn : ¬ (r ≤ q.val ∧ q.val < r + (bs.length + 1)) := by omega
        rw [dif_neg hn]
        split
        · rw [setReg_reg, if_neg (fun hq => h2 (by rw [hq]))]
        · rfl

/-- A run of register loads changes only `v`. -/
theorem setRegsFrom_eq (bs : List Byte) (s : State) (r : Nat) :
    s.setRegsFrom r bs = { s with v := (s.setRegsFrom r bs).v } := by
  induction bs generalizing s r with
  | nil => rfl
  | cons b bs ih =>
    simp only [State.setRegsFrom]
    split
    · rw [ih]; rfl
    · rw [ih]

/-! ### Display (R152) -/

@[simp] theorem get_blankDisplay (x : Fin 64) (y : Fin 32) : blankDisplay.get x y = false := by
  simp [blankDisplay, Display.get]

/-- Reading a pixel after a toggle: the toggled pixel is the other way, every other as before. -/
theorem get_toggle (d : Display) (x x' : Fin 64) (y y' : Fin 32) :
    (d.toggle x y).get x' y' = if x' = x ∧ y' = y then !d.get x y else d.get x' y' := by
  by_cases hy : y' = y
  · subst hy
    by_cases hx : x' = x
    · subst hx
      simp [Display.get, Display.toggle]
    · have hx' : x.val ≠ x'.val := fun h => hx (Fin.ext h.symm)
      simp [Display.get, Display.toggle, hx, hx']
  · have hy' : y.val ≠ y'.val := fun h => hy (Fin.ext h.symm)
    simp [Display.get, Display.toggle, hy, hy']

theorem val_column (n : Nat) : (column n).val = n % 64 := rfl

theorem val_row (n : Nat) : (row n).val = n % 32 := rfl

/-- What one sprite bit can do. -/
theorem drawBit_cases (bit : Bool) (x y : Nat) (p : Display × Bool) :
    (bit = true ∧ drawBit bit x y p = (p.1.toggle (column x) (row y), p.2 || p.1.get (column x) (row y))) ∨
    (bit = false ∧ drawBit bit x y p = p) := by
  cases bit
  · exact .inr ⟨rfl, rfl⟩
  · exact .inl ⟨rfl, rfl⟩

/-- The pixel at `(px, py)` is hit by a set bit of the lowest `k` bits of a sprite row (R152). -/
def RowCovers (b : Byte) (x0 y k : Nat) (px : Fin 64) (py : Fin 32) : Prop :=
  ∃ j, j < k ∧ b.getLsbD j = true ∧ px = column (x0 + (7 - j)) ∧ py = row y

/-- Everything the columns of one sprite row do (R152): exactly the covered pixels are toggled, and the collision
gathers those that were on. -/
theorem drawColumns_spec (b : Byte) (x0 y k : Nat) (hk : k ≤ 8) (p : Display × Bool) :
    (∀ px py, (RowCovers b x0 y k px py → (drawColumns b x0 y k p).1.get px py = !p.1.get px py) ∧
      (¬ RowCovers b x0 y k px py → (drawColumns b x0 y k p).1.get px py = p.1.get px py)) ∧
    ((drawColumns b x0 y k p).2 = true ↔
      p.2 = true ∨ ∃ px py, RowCovers b x0 y k px py ∧ p.1.get px py = true) := by
  induction k generalizing p with
  | zero =>
    refine ⟨fun px py => ⟨fun ⟨j, hj, _⟩ => absurd hj (Nat.not_lt_zero j), fun _ => rfl⟩, ?_⟩
    constructor
    · exact fun h => .inl h
    · rintro (h | ⟨px, py, ⟨j, hj, _⟩, _⟩)
      · exact h
      · exact absurd hj (Nat.not_lt_zero j)
  | succ k ih =>
    have hne : ∀ j, j < k → column (x0 + (7 - j)) ≠ column (x0 + (7 - k)) := by
      intro j hj h
      have := congrArg Fin.val h
      simp only [val_column] at this
      omega
    have hnot : ¬ RowCovers b x0 y k (column (x0 + (7 - k))) (row y) := by
      rintro ⟨j, hj, _, hx, _⟩
      exact hne j hj hx.symm
    have hstep : ∀ px py, RowCovers b x0 y (k + 1) px py ↔
        RowCovers b x0 y k px py ∨ (b.getLsbD k = true ∧ px = column (x0 + (7 - k)) ∧ py = row y) := by
      intro px py
      constructor
      · rintro ⟨j, hj, hb, hx, hy⟩
        by_cases h : j = k
        · subst h; exact .inr ⟨hb, hx, hy⟩
        · exact .inl ⟨j, by omega, hb, hx, hy⟩
      · rintro (⟨j, hj, hb, hx, hy⟩ | ⟨hb, hx, hy⟩)
        · exact ⟨j, by omega, hb, hx, hy⟩
        · exact ⟨k, by omega, hb, hx, hy⟩
    have hdef : drawColumns b x0 y (k + 1) p = drawColumns b x0 y k (drawBit (b.getLsbD k) (x0 + (7 - k)) y p) := rfl
    obtain ⟨hget, hhit⟩ := ih (by omega) (drawBit (b.getLsbD k) (x0 + (7 - k)) y p)
    rw [hdef]
    rcases drawBit_cases (b.getLsbD k) (x0 + (7 - k)) y p with ⟨hb, he⟩ | ⟨hb, he⟩
    · rw [he] at hget hhit ⊢
      refine ⟨fun px py => ⟨fun h => ?_, fun h => ?_⟩, ?_⟩
      · rcases (hstep px py).mp h with h' | ⟨_, hx, hy⟩
        · rw [(hget px py).1 h', get_toggle, if_neg]
          rintro ⟨hx, hy⟩
          subst hx; subst hy
          exact hnot h'
        · subst hx; subst hy
          rw [(hget _ _).2 hnot, get_toggle, if_pos ⟨rfl, rfl⟩]
      · rw [hstep, not_or] at h
        rw [(hget px py).2 h.1, get_toggle, if_neg]
        exact fun hxy => h.2 ⟨hb, hxy⟩
      · rw [hhit]
        simp only [Bool.or_eq_true, get_toggle]
        constructor
        · rintro ((h | h) | ⟨px, py, hc, hg⟩)
          · exact .inl h
          · exact .inr ⟨_, _, (hstep _ _).mpr (.inr ⟨hb, rfl, rfl⟩), h⟩
          · rw [if_neg (by rintro ⟨hx, hy⟩; subst hx; subst hy; exact hnot hc)] at hg
            exact .inr ⟨px, py, (hstep px py).mpr (.inl hc), hg⟩
        · rintro (h | ⟨px, py, hc, hg⟩)
          · exact .inl (.inl h)
          · rcases (hstep px py).mp hc with h' | ⟨_, hx, hy⟩
            · refine .inr ⟨px, py, h', ?_⟩
              rw [if_neg (by rintro ⟨hx, hy⟩; subst hx; subst hy; exact hnot h')]
              exact hg
            · subst hx; subst hy
              exact .inl (.inr hg)
    · rw [he] at hget hhit ⊢
      have hsame : ∀ px py, RowCovers b x0 y (k + 1) px py ↔ RowCovers b x0 y k px py := by
        intro px py
        rw [hstep]
        simp [hb]
      simp only [hsame]
      exact ⟨hget, hhit⟩

/-- The pixel at `(px, py)` is hit by a set bit of the listed sprite rows (R152). -/
def RowsCover (bs : List Byte) (x0 y : Nat) (px : Fin 64) (py : Fin 32) : Prop :=
  ∃ (r : Nat) (h : r < bs.length), RowCovers bs[r] x0 (y + r) 8 px py

/-- Everything the rows of a sprite of at most 32 rows do (R152): exactly the covered pixels are toggled, and the
collision gathers those that were on before the draw. -/
theorem drawRows_spec (bs : List Byte) (x0 y : Nat) (hl : bs.length ≤ 32) (p : Display × Bool) :
    (∀ px py, (RowsCover bs x0 y px py → (drawRows x0 y bs p).1.get px py = !p.1.get px py) ∧
      (¬ RowsCover bs x0 y px py → (drawRows x0 y bs p).1.get px py = p.1.get px py)) ∧
    ((drawRows x0 y bs p).2 = true ↔ p.2 = true ∨ ∃ px py, RowsCover bs x0 y px py ∧ p.1.get px py = true) := by
  induction bs generalizing y p with
  | nil =>
    refine ⟨fun px py => ⟨fun ⟨r, h, _⟩ => absurd h (Nat.not_lt_zero r), fun _ => rfl⟩, ?_⟩
    constructor
    · exact fun h => .inl h
    · rintro (h | ⟨px, py, ⟨r, h, _⟩, _⟩)
      · exact h
      · exact absurd h (Nat.not_lt_zero r)
  | cons b bs ih =>
    simp only [List.length_cons] at hl
    have hdisj : ∀ px py, RowCovers b x0 y 8 px py → ¬ RowsCover bs x0 (y + 1) px py := by
      rintro px py ⟨j, _, _, _, hy⟩ ⟨r, h, j', _, _, _, hy'⟩
      have := congrArg Fin.val (hy.symm.trans hy')
      simp only [val_row] at this
      omega
    have hstep : ∀ px py, RowsCover (b :: bs) x0 y px py ↔
        RowCovers b x0 y 8 px py ∨ RowsCover bs x0 (y + 1) px py := by
      intro px py
      constructor
      · rintro ⟨r, h, hc⟩
        cases r with
        | zero => exact .inl hc
        | succ r =>
          refine .inr ⟨r, by simpa using h, ?_⟩
          rw [Nat.add_right_comm, Nat.add_assoc]
          exact hc
      · rintro (hc | ⟨r, h, hc⟩)
        · exact ⟨0, by simp, hc⟩
        · refine ⟨r + 1, by simpa using h, ?_⟩
          rw [Nat.add_right_comm, Nat.add_assoc] at hc
          exact hc
    obtain ⟨hget, hhit⟩ := ih (y + 1) (by omega) (drawColumns b x0 y 8 p)
    obtain ⟨hget0, hhit0⟩ := drawColumns_spec b x0 y 8 (Nat.le_refl 8) p
    have hdef : drawRows x0 y (b :: bs) p = drawRows x0 (y + 1) bs (drawColumns b x0 y 8 p) := rfl
    rw [hdef]
    refine ⟨fun px py => ⟨fun h => ?_, fun h => ?_⟩, ?_⟩
    · rcases (hstep px py).mp h with h' | h'
      · rw [(hget px py).2 (hdisj px py h'), (hget0 px py).1 h']
      · rw [(hget px py).1 h', (hget0 px py).2 (fun hc => hdisj px py hc h')]
    · rw [hstep, not_or] at h
      rw [(hget px py).2 h.2, (hget0 px py).2 h.1]
    · rw [hhit, hhit0]
      constructor
      · rintro ((h | ⟨px, py, hc, hg⟩) | ⟨px, py, hc, hg⟩)
        · exact .inl h
        · exact .inr ⟨px, py, (hstep px py).mpr (.inl hc), hg⟩
        · rw [(hget0 px py).2 (fun h => hdisj px py h hc)] at hg
          exact .inr ⟨px, py, (hstep px py).mpr (.inr hc), hg⟩
      · rintro (h | ⟨px, py, hc, hg⟩)
        · exact .inl (.inl h)
        · rcases (hstep px py).mp hc with h' | h'
          · exact .inl (.inr ⟨px, py, h', hg⟩)
          · refine .inr ⟨px, py, h', ?_⟩
            rw [(hget0 px py).2 (fun h => hdisj px py h h')]
            exact hg

/-! ### Frames -/

theorem frame_refl (l : List Part) (s : State) : Frame l s s := by
  intro p _
  cases p <;> simp [Part.same]

/-- A frame may be widened. -/
theorem Frame.mono {l l' : List Part} {s t : State} (h : Frame l s t) (hl : ∀ p ∈ l, p ∈ l') : Frame l' s t :=
  fun p hp => h p (fun hm => hp (hl p hm))

/-- Frames compose. -/
theorem Frame.trans {l l' : List Part} {s t u : State} (h : Frame l s t) (h' : Frame l' t u) : Frame (l ++ l') s u := by
  intro p hp
  have h1 := h p (fun hm => hp (List.mem_append_left _ hm))
  have h2 := h' p (fun hm => hp (List.mem_append_right _ hm))
  cases p <;> simp_all [Part.same]

/-- The frame of a register write. -/
theorem frame_setReg (s : State) (x : RegIdx) (b : Byte) : Frame [.reg x] s (s.setReg x b) := by
  intro p hp
  cases p with
  | reg r =>
    have hr : r ≠ x := fun h => hp (by simp [h])
    simp [Part.same, hr]
  | _ => simp [Part.same]

/-- The frame of a flag write. -/
theorem frame_setFlag (s : State) (f : Bool) : Frame [.reg flagReg] s (s.setFlag f) := frame_setReg s flagReg _

/-- The frame of a result and a flag, in either order. -/
theorem frame_setResultAndFlag (o : Config.VfOrder) (s : State) (x : RegIdx) (b : Byte) (f : Bool) :
    Frame [.reg x, .reg flagReg] s (s.setResultAndFlag o x b f) := by
  cases o
  · exact (frame_setReg s x b).trans (frame_setFlag _ f)
  · exact ((frame_setFlag s f).trans (frame_setReg _ x b)).mono (by simp)

/-- Both orders leave the same registers but for `x` = 15, where the last write stays (R131). -/
theorem setResultAndFlag_reg (o : Config.VfOrder) (s : State) (x q : RegIdx) (b : Byte) (f : Bool) :
    (s.setResultAndFlag o x b f).reg q =
      match o with
      | .flagLast => if q = flagReg then flagByte f else if q = x then b else s.reg q
      | .resultLast => if q = x then b else if q = flagReg then flagByte f else s.reg q := by
  cases o <;> simp [State.setResultAndFlag]

/-- `V[0]` to `V[x]` are the registers with index at most `x`. -/
theorem mem_regParts (x r : RegIdx) : Part.reg r ∈ regParts x ↔ r ≤ x := by
  simp [regParts]

/-- The frame of a write of `PC`. -/
theorem frame_setPc (s : State) (a : Word) : Frame [.pc] s (s.setPc a) := by
  intro p hp
  cases p <;> simp_all [Part.same]

/-- The frame of a write of `I`. -/
theorem frame_setI (s : State) (a : Word) : Frame [.addr] s (s.setI a) := by
  intro p hp
  cases p <;> simp_all [Part.same]

/-- The frame of a data write that stores: no byte outside those of the run from `I` changes. -/
theorem memorySameOutside_writeData {s t : State} {bs : List Byte} (h : s.writeData bs = some t) :
    MemorySameOutside s.i.toNat bs.length s t := by
  rcases writeData_cases s bs with ⟨_, he⟩ | ⟨_, he⟩ <;> rw [he] at h <;> cases h
  exact fun c hc => Memory.read_writeRun_outside s.mem s.i.toNat bs hc

/-- An error changes no byte. -/
theorem memorySameOutside_report (s : State) (e : ErrorKind) (base k : Nat) :
    MemorySameOutside base k s { s with report := some e } := fun _ _ => rfl

/-- The frame of an error. -/
theorem frame_report (s : State) (e : ErrorKind) : Frame [.outputs] s { s with report := some e } := by
  intro p hp
  cases p <;> simp_all [Part.same, State.reg]

/-- The frame of a fetch. -/
theorem frame_fetched (s : State) (w : Word) : Frame [.pc, .outputs] s (s.fetched w) := by
  intro p hp
  cases p <;> simp_all [Part.same]

end Sys2Proof.Machine
end

