-- ==== Sys2Proof/Laws/Flags.lean ====
section
/-! SUPPORT. The flag values as numbers (10_state.md R23), and the arithmetic of operand forms as numbers. -/

namespace Sys2Proof.Machine

theorem toNat_flagByte (f : Bool) : (flagByte f).toNat = if f then 1 else 0 := by
  cases f <;> rfl

/-- The carry of R127. -/
theorem toNat_carryFlag (a b : Byte) : (flagByte (carryFlag a b)).toNat = if 255 < a.toNat + b.toNat then 1 else 0 := by
  simp [toNat_flagByte, carryFlag]

/-- The not-borrow of R128 and R130. -/
theorem toNat_notBorrowFlag (m s : Byte) : (flagByte (notBorrowFlag m s)).toNat = if s.toNat ≤ m.toNat then 1 else 0 := by
  simp [toNat_flagByte, notBorrowFlag]

/-- The bit shifted out to the right (R129). -/
theorem toNat_shiftRightFlag (a : Byte) : (flagByte (shiftRightFlag a)).toNat = a.toNat % 2 := by
  have h : a.getLsbD 0 = decide (a.toNat % 2 = 1) := by
    show a.toNat.testBit 0 = _
    rw [Nat.testBit_zero]
  have := Nat.mod_two_eq_zero_or_one a.toNat
  simp only [flagByte, shiftRightFlag, h]
  rcases this with h | h <;> simp [h]

/-- The bit shifted out to the left (R132). -/
theorem toNat_shiftLeftFlag (a : Byte) : (flagByte (shiftLeftFlag a)).toNat = a.toNat / 128 := by
  have h : a.getLsbD 7 = decide (128 ≤ a.toNat) := by
    simpa [BitVec.msb, BitVec.getMsbD] using BitVec.msb_eq_decide a
  have := a.isLt
  simp only [flagByte, shiftLeftFlag, h, decide_eq_true_eq]
  split
  · show 1 = _; omega
  · show 0 = _; omega

/-- `zext_16(nnn)` keeps the number (R73). -/
@[simp] theorem toNat_zextAddr (nnn : Addr12) : (zextAddr nnn).toNat = nnn.toNat := by
  have := nnn.isLt
  simp only [zextAddr, BitVec.toNat_setWidth]
  omega

/-- `zext_16(b)` keeps the number. -/
@[simp] theorem toNat_zextByte (b : Byte) : (zextByte b).toNat = b.toNat := by
  have := b.isLt
  simp only [zextByte, BitVec.toNat_setWidth]
  omega

/-- The glyph address is five times the byte; it never wraps (R142). -/
theorem toNat_glyphAddress (b : Byte) : (glyphAddress b).toNat = b.toNat * 5 := by
  have := b.isLt
  have h5 : (5 : Word).toNat = 5 := rfl
  simp only [glyphAddress, BitVec.toNat_mul, toNat_zextByte, h5]
  omega

/-- The decimal digits of R143 as numbers, hundreds first. -/
theorem bcdDigits_toNat (b : Byte) :
    (bcdDigits b).map BitVec.toNat = [b.toNat / 100, b.toNat / 10 % 10, b.toNat % 10] := by
  have := b.isLt
  simp only [bcdDigits, List.map_cons, List.map_nil, BitVec.toNat_ofNat, List.cons.injEq, and_true]
  omega

end Sys2Proof.Machine
end

