-- ==== Sys2Proof/Laws/PerInstr.lean ====
section
/-! SUPPORT. Statements made for every instruction, one lemma per constructor. The family `RowMatch`: the word of an
instruction selects the instruction's own row of the opcode map (30_encoding.md R74, R75). -/

namespace Sys2Proof.Laws.RowMatch

/-- The encoded word of `i` selects the row of R75 that `i` stands in. -/
def Statement (i : Instr) : Prop := i.row.selectedBy (encodeWord i) = true

theorem nop : Statement .nop := rfl
theorem cls : Statement .cls := rfl
theorem ret : Statement .ret := rfl
theorem jp (nnn : Addr12) : Statement (.jp nnn) := selectedBy_layoutNNN _ _ _ rfl
theorem call (nnn : Addr12) : Statement (.call nnn) := selectedBy_layoutNNN _ _ _ rfl
theorem seImm (x : RegIdx) (nn : Byte) : Statement (.seImm x nn) := selectedBy_layoutXNN _ _ _ _ rfl
theorem sneImm (x : RegIdx) (nn : Byte) : Statement (.sneImm x nn) := selectedBy_layoutXNN _ _ _ _ rfl
theorem seReg (x y : RegIdx) : Statement (.seReg x y) := selectedBy_layoutXY _ _ _ _ _ rfl
theorem ldImm (x : RegIdx) (nn : Byte) : Statement (.ldImm x nn) := selectedBy_layoutXNN _ _ _ _ rfl
theorem addImm (x : RegIdx) (nn : Byte) : Statement (.addImm x nn) := selectedBy_layoutXNN _ _ _ _ rfl
theorem ldReg (x y : RegIdx) : Statement (.ldReg x y) := selectedBy_layoutXY _ _ _ _ _ rfl
theorem orReg (x y : RegIdx) : Statement (.orReg x y) := selectedBy_layoutXY _ _ _ _ _ rfl
theorem andReg (x y : RegIdx) : Statement (.andReg x y) := selectedBy_layoutXY _ _ _ _ _ rfl
theorem xorReg (x y : RegIdx) : Statement (.xorReg x y) := selectedBy_layoutXY _ _ _ _ _ rfl
theorem addReg (x y : RegIdx) : Statement (.addReg x y) := selectedBy_layoutXY _ _ _ _ _ rfl
theorem subReg (x y : RegIdx) : Statement (.subReg x y) := selectedBy_layoutXY _ _ _ _ _ rfl
theorem shr (x y : RegIdx) : Statement (.shr x y) := selectedBy_layoutXY _ _ _ _ _ rfl
theorem subnReg (x y : RegIdx) : Statement (.subnReg x y) := selectedBy_layoutXY _ _ _ _ _ rfl
theorem shl (x y : RegIdx) : Statement (.shl x y) := selectedBy_layoutXY _ _ _ _ _ rfl
theorem sneReg (x y : RegIdx) : Statement (.sneReg x y) := selectedBy_layoutXY _ _ _ _ _ rfl
theorem ldI (nnn : Addr12) : Statement (.ldI nnn) := selectedBy_layoutNNN _ _ _ rfl
theorem jpV0 (nnn : Addr12) : Statement (.jpV0 nnn) := selectedBy_layoutNNN _ _ _ rfl
theorem rnd (x : RegIdx) (nn : Byte) : Statement (.rnd x nn) := selectedBy_layoutXNN _ _ _ _ rfl
theorem drw (x y : RegIdx) (n : Nat) : Statement (.drw x y n) := selectedBy_layoutXYN _ _ _ _ _ rfl
theorem skp (x : RegIdx) : Statement (.skp x) := selectedBy_layoutX _ _ _ _ rfl
theorem sknp (x : RegIdx) : Statement (.sknp x) := selectedBy_layoutX _ _ _ _ rfl
theorem ldVxDT (x : RegIdx) : Statement (.ldVxDT x) := selectedBy_layoutX _ _ _ _ rfl
theorem ldVxK (x : RegIdx) : Statement (.ldVxK x) := selectedBy_layoutX _ _ _ _ rfl
theorem ldDTVx (x : RegIdx) : Statement (.ldDTVx x) := selectedBy_layoutX _ _ _ _ rfl
theorem ldSTVx (x : RegIdx) : Statement (.ldSTVx x) := selectedBy_layoutX _ _ _ _ rfl
theorem addIVx (x : RegIdx) : Statement (.addIVx x) := selectedBy_layoutX _ _ _ _ rfl
theorem ldFVx (x : RegIdx) : Statement (.ldFVx x) := selectedBy_layoutX _ _ _ _ rfl
theorem ldBVx (x : RegIdx) : Statement (.ldBVx x) := selectedBy_layoutX _ _ _ _ rfl
theorem storeRegs (x : RegIdx) : Statement (.storeRegs x) := selectedBy_layoutX _ _ _ _ rfl
theorem loadRegs (x : RegIdx) : Statement (.loadRegs x) := selectedBy_layoutX _ _ _ _ rfl

end Sys2Proof.Laws.RowMatch
end

