-- ==== Sys2Proof/Tests/Slice0.lean ====
section
/-! SUPPORT. Small tests, expected values from spec/95_test_vectors.md (the id stands at each) or worked out by hand from
the rule named, and a witness for the hypotheses of every statement that has some. -/

namespace Sys2Proof.Tests

open Sys2Proof Sys2Proof.Machine

/-! ### WellFormed: one ill-formed term for its one check -/

theorem test_wf_refuses_sixteen_rows : (Instr.drw 0 0 16).wf = false := by decide

theorem test_wf_accepts_fifteen_rows : (Instr.drw 0 0 15).wf = true := by decide

/-! ### Decoding: every constructor from a word written out from R75 -/

theorem test_decode_control :
    decodeWord 0x0000 = .ok .nop ∧ decodeWord 0x00EE = .ok .ret ∧ decodeWord 0x1ABC = .ok (.jp 0xABC) ∧
    decodeWord 0x2DEF = .ok (.call 0xDEF) ∧ decodeWord 0xB123 = .ok (.jpV0 0x123) ∧
    decodeWord 0x3A45 = .ok (.seImm 10 0x45) ∧ decodeWord 0x4B56 = .ok (.sneImm 11 0x56) ∧
    decodeWord 0x5CD0 = .ok (.seReg 12 13) ∧ decodeWord 0x9EF0 = .ok (.sneReg 14 15) := by decide

theorem test_decode_alu :
    decodeWord 0x6AFF = .ok (.ldImm 10 0xFF) ∧ decodeWord 0x7201 = .ok (.addImm 2 0x01) ∧
    decodeWord 0x8010 = .ok (.ldReg 0 1) ∧ decodeWord 0x8121 = .ok (.orReg 1 2) ∧
    decodeWord 0x8232 = .ok (.andReg 2 3) ∧ decodeWord 0x8343 = .ok (.xorReg 3 4) ∧
    decodeWord 0x8454 = .ok (.addReg 4 5) ∧ decodeWord 0x8565 = .ok (.subReg 5 6) ∧
    decodeWord 0x8676 = .ok (.shr 6 7) ∧ decodeWord 0x8787 = .ok (.subnReg 7 8) ∧
    decodeWord 0x889E = .ok (.shl 8 9) ∧ decodeWord 0xC10F = .ok (.rnd 1 0x0F) := by decide

theorem test_decode_memory_and_display :
    decodeWord 0xAFFF = .ok (.ldI 0xFFF) ∧ decodeWord 0xF11E = .ok (.addIVx 1) ∧ decodeWord 0xF229 = .ok (.ldFVx 2) ∧
    decodeWord 0xF333 = .ok (.ldBVx 3) ∧ decodeWord 0xF455 = .ok (.storeRegs 4) ∧ decodeWord 0xF565 = .ok (.loadRegs 5) ∧
    decodeWord 0x00E0 = .ok .cls ∧ decodeWord 0xDF0F = .ok (.drw 15 0 15) := by decide

theorem test_decode_keys_and_timers :
    decodeWord 0xE69E = .ok (.skp 6) ∧ decodeWord 0xE7A1 = .ok (.sknp 7) ∧ decodeWord 0xF807 = .ok (.ldVxDT 8) ∧
    decodeWord 0xF90A = .ok (.ldVxK 9) ∧ decodeWord 0xFA15 = .ok (.ldDTVx 10) ∧
    decodeWord 0xFB18 = .ok (.ldSTVx 11) := by decide

/-- F6. -/
theorem test_decode_rejects_by_name :
    ([0x0001, 0x00E1, 0x0100, 0x0FFF, 0x5121, 0x512F, 0x8018, 0x801D, 0x801F] : List Word).all
      (fun w => decodeWord w == .error (.unsupported w)) = true ∧
    ([0x9121, 0xE000, 0xE19F, 0xE0A2, 0xF000, 0xF108, 0xF1FF, 0xFFFF] : List Word).all
      (fun w => decodeWord w == .error (.unsupported w)) = true := by decide

theorem test_decode_of_too_few_bytes : decode [] = .error .truncated ∧ decode [0x12] = .error .truncated := by decide

/-- F1: the first byte is the high byte. -/
theorem test_decode_is_big_endian : decode [0x12, 0x34, 0x56] = .ok (.jp 0x234, [0x56]) := by decide

theorem test_encode_is_big_endian : encode (.drw 1 2 5) = [0xD1, 0x25] := by decide

theorem test_decodeTableWord :
    decodeTableWord 16 0x8AB4 = some (.addReg 10 11) ∧ decodeTableWord 16 0x0100 = none := by decide

/-! ### States for the tests -/

/-- The outcome is a next state of which the check holds. -/
def nextHas (o : Out) (check : State → Bool) : Bool :=
  match o with
  | .next t => check t
  | .fault _ => false
  | .refused _ => false

/-- The operation answers this state and reply. -/
def answers (op : HostOp) (s t : State) (r : Reply) : Bool :=
  match op.perform s with
  | .next (t', r') => decide (t' = t) && decide (r' = r)
  | .fault _ => false
  | .refused _ => false

/-- The step that fetches the word from `PC`. -/
def stepOn (w : Nat) (s : State) : Out := step (s.withFetchWord 16 w)

/-- The reset state with `V[0]`, `V[1]` and `V[15]` set. -/
def regs (a b f : Byte) : State := ((State.reset.setReg 0 a).setReg 1 b).setReg 15 f

/-- The reset state with `I` set and the bytes stored there. -/
def dataAt (i : Word) (bytes : List Byte) (s : State) : State :=
  { s with i := i, mem := s.mem.writeRun i.toNat bytes }

/-- The reset state with the keys of the list down. -/
def keysDown (down : List (Fin 16)) (s : State) : State := { s with key := down.foldl (fun k (i : Fin 16) => k.set i true) s.key }

/-- The reset state with `SP` and every stack slot set. -/
def stackOf (sp : Fin 17) (a : Word) (s : State) : State := { s with sp := sp, stack := Vector.replicate 16 a }

/-- The pixels of the row that are on, columns listed. -/
def rowOn (s : State) (y : Fin 32) : List Nat := ((List.finRange 64).filter (fun x => s.px.get x y)).map Fin.val

/-! ### Fetch and errors -/

/-- F2. -/
theorem test_nop : nextHas (stepOn 0x0000 State.reset) (fun t => t.pc == 0x202 && t.report == none) = true := by decide

/-- F3, F4. -/
theorem test_fetch_at_the_top :
    nextHas (step { State.reset with pc := 0xFFE }) (fun t => t.pc == 0x1000 && t.report == none) = true ∧
    nextHas (step { State.reset with pc := 0xFFF })
      (fun t => t.pc == 0xFFF && t.report == some .addressOutOfRange) = true := by decide

/-- F6, F8: the trace record comes before the error. -/
theorem test_unsupported_word :
    nextHas (stepOn 0xFFFF (State.reset.setTrace true))
      (fun t => t.pc == 0x202 && t.report == some .unsupportedInstruction && t.trace == some ⟨0x200, 0xFFFF⟩) = true := by
  decide

theorem test_withFetchWord_moves_an_unfetchable_pc :
    nextHas (stepOn 0x6A07 { State.reset with pc := 0xFFF }) (fun t => t.reg 10 == 7 && t.pc == 0x202) = true := by decide

/-! ### Control flow -/

/-- J1. -/
theorem test_jp : nextHas (stepOn 0x1204 { State.reset with pc := 0x208 }) (fun t => t.pc == 0x204) = true := by decide

/-- J3. -/
theorem test_call :
    nextHas (stepOn 0x220C { State.reset with pc := 0x204 })
      (fun t => t.stack[0] == 0x206 && t.sp == 1 && t.pc == 0x20C) = true := by decide

/-- J4. -/
theorem test_call_overflow :
    nextHas (stepOn 0x2300 (stackOf 16 0x206 State.reset))
      (fun t => t.report == some .stackOverflow && t.sp == 16 && t.pc == 0x202 && t.stack[15] == 0x206) = true := by decide

/-- J7. -/
theorem test_ret :
    nextHas (stepOn 0x00EE (stackOf 1 0x206 { State.reset with pc := 0x300 }))
      (fun t => t.pc == 0x206 && t.sp == 0 && t.stack[0] == 0x206) = true := by decide

/-- J6. -/
theorem test_ret_underflow :
    nextHas (stepOn 0x00EE State.reset) (fun t => t.report == some .stackUnderflow && t.sp == 0 && t.pc == 0x202) = true := by
  decide

/-- J9, J10. -/
theorem test_jpV0 :
    nextHas (stepOn 0xBFFF (regs 0xFF 0 0)) (fun t => t.pc == 0x10FE) = true ∧
    nextHas (stepOn 0xB300 ((regs 0x01 0 0).setReg 3 0x99)) (fun t => t.pc == 0x301) = true := by decide

/-- S6, K5. -/
theorem test_seImm :
    nextHas (stepOn 0x332A (State.reset.setReg 3 0x2A)) (fun t => t.pc == 0x204) = true ∧
    nextHas (stepOn 0x332B (State.reset.setReg 3 0x2A)) (fun t => t.pc == 0x202) = true := by decide

/-- K1. -/
theorem test_sneImm :
    nextHas (stepOn 0x432A (State.reset.setReg 3 0x2A)) (fun t => t.pc == 0x202) = true ∧
    nextHas (stepOn 0x4300 (State.reset.setReg 3 0x2A)) (fun t => t.pc == 0x204) = true := by decide

/-- K2, K3 (with registers 0 and 1). -/
theorem test_seReg :
    nextHas (stepOn 0x5010 (regs 7 7 0)) (fun t => t.pc == 0x204) = true ∧
    nextHas (stepOn 0x5010 (regs 7 8 0)) (fun t => t.pc == 0x202) = true := by decide

/-- K2, K3 (with registers 0 and 1). -/
theorem test_sneReg :
    nextHas (stepOn 0x9010 (regs 7 7 0)) (fun t => t.pc == 0x202) = true ∧
    nextHas (stepOn 0x9010 (regs 7 8 0)) (fun t => t.pc == 0x204) = true := by decide

/-! ### Loads, arithmetic, logic, shifts, random -/

/-- A2. -/
theorem test_ldImm : nextHas (stepOn 0x6F37 State.reset) (fun t => t.reg 15 == 0x37) = true := by decide

/-- A4. -/
theorem test_addImm : nextHas (stepOn 0x7080 (regs 0x80 0 0)) (fun t => t.reg 0 == 0 && t.reg 15 == 0) = true := by decide

/-- A5. -/
theorem test_ldReg : nextHas (stepOn 0x8010 (regs 0 0x37 0)) (fun t => t.reg 0 == 0x37 && t.reg 1 == 0x37) = true := by
  decide

/-- A6. -/
theorem test_orReg : nextHas (stepOn 0x8011 (regs 0xF0 0x0F 1)) (fun t => t.reg 0 == 0xFF && t.reg 15 == 1) = true := by
  decide

/-- A7. -/
theorem test_andReg : nextHas (stepOn 0x8012 (regs 0xF0 0x3C 1)) (fun t => t.reg 0 == 0x30 && t.reg 15 == 1) = true := by
  decide

/-- A8. -/
theorem test_xorReg : nextHas (stepOn 0x8013 (regs 0xF0 0x3C 1)) (fun t => t.reg 0 == 0xCC && t.reg 15 == 1) = true := by
  decide

/-- A11, A12. -/
theorem test_addReg :
    nextHas (stepOn 0x8014 (regs 0x80 0x80 0)) (fun t => t.reg 0 == 0 && t.reg 15 == 1) = true ∧
    nextHas (stepOn 0x8014 (regs 0x7F 0x80 1)) (fun t => t.reg 0 == 0xFF && t.reg 15 == 0) = true := by decide

/-- A14, A26: `V[15]` as a source and as the destination. -/
theorem test_addReg_flag_register :
    nextHas (stepOn 0x80F4 (regs 0x01 0 0xFF)) (fun t => t.reg 0 == 0 && t.reg 15 == 1) = true ∧
    nextHas (stepOn 0x8F14 (regs 0 0x02 0x10)) (fun t => t.reg 15 == 0) = true := by decide

/-- A15, A16. -/
theorem test_subReg :
    nextHas (stepOn 0x8015 (regs 7 7 0)) (fun t => t.reg 0 == 0 && t.reg 15 == 1) = true ∧
    nextHas (stepOn 0x8015 (regs 0 1 1)) (fun t => t.reg 0 == 0xFF && t.reg 15 == 0) = true := by decide

/-- A17, A18. -/
theorem test_subnReg :
    nextHas (stepOn 0x8017 (regs 3 5 0)) (fun t => t.reg 0 == 2 && t.reg 15 == 1) = true ∧
    nextHas (stepOn 0x8017 (regs 5 3 1)) (fun t => t.reg 0 == 0xFE && t.reg 15 == 0) = true := by decide

/-- A20, A30. -/
theorem test_shr :
    nextHas (stepOn 0x8016 (regs 0x01 0xEE 0)) (fun t => t.reg 0 == 0 && t.reg 15 == 1 && t.reg 1 == 0xEE) = true ∧
    nextHas (stepOn 0x8F06 (regs 0 0 0x06)) (fun t => t.reg 15 == 3) = true := by decide

/-- A23, A32. -/
theorem test_shl :
    nextHas (stepOn 0x801E (regs 0x80 0x11 0)) (fun t => t.reg 0 == 0 && t.reg 15 == 1 && t.reg 1 == 0x11) = true ∧
    nextHas (stepOn 0x8F0E (regs 0 0 0x81)) (fun t => t.reg 15 == 2) = true := by decide

/-- A34: the injected byte, masked and consumed. -/
theorem test_rnd :
    nextHas (stepOn 0xC10F { State.reset with rndIn := [0xB7, 0x55] }) (fun t => t.reg 1 == 7 && t.rndIn == [0x55]) = true := by
  decide

/-! ### The address register and memory -/

/-- M1. -/
theorem test_ldI : nextHas (stepOn 0xAFFF State.reset) (fun t => t.i == 0xFFF) = true := by decide

/-- M2, M3. -/
theorem test_addIVx :
    nextHas (stepOn 0xF11E { regs 0 1 0 with i := 0xFFF }) (fun t => t.i == 0x1000 && t.reg 15 == 0) = true ∧
    nextHas (stepOn 0xF11E { regs 0 1 0 with i := 0xFFFF }) (fun t => t.i == 0) = true := by decide

/-- M5. -/
theorem test_ldFVx : nextHas (stepOn 0xF029 (regs 0xFF 0 0)) (fun t => t.i == 0x04FB) = true := by decide

/-- M7, M9. -/
theorem test_ldBVx :
    nextHas (stepOn 0xF033 { regs 199 0 0 with i := 0x300 })
      (fun t => t.mem.readRun 0x300 4 == [1, 9, 9, 0] && t.i == 0x300) = true ∧
    nextHas (stepOn 0xF033 { regs 123 0 0 with i := 0xFFD }) (fun t => t.mem.readRun 0xFFD 3 == [1, 2, 3]) = true := by
  decide

/-- M10. -/
theorem test_ldBVx_out_of_range :
    nextHas (stepOn 0xF033 { regs 123 0 0 with i := 0xFFE })
      (fun t => t.report == some .addressOutOfRange && t.mem.readRun 0xFFE 2 == [0, 0] && t.pc == 0x202) = true := by decide

/-- M11 (with registers 0, 1 and 2), M12. -/
theorem test_storeRegs :
    nextHas (stepOn 0xF155 { (regs 11 22 0).setReg 2 33 with i := 0x400 })
      (fun t => t.mem.readRun 0x400 3 == [11, 22, 0] && t.i == 0x400) = true ∧
    nextHas (stepOn 0xF055 { regs 0xAA 0 0 with i := 0xFFF }) (fun t => t.mem.read 0xFFF == 0xAA) = true := by decide

/-- M13: no partial write. -/
theorem test_storeRegs_out_of_range :
    nextHas (stepOn 0xF155 { regs 0xAA 0xBB 0 with i := 0xFFF })
      (fun t => t.report == some .addressOutOfRange && t.mem.read 0xFFF == 0) = true := by decide

/-- M15. -/
theorem test_loadRegs :
    nextHas (stepOn 0xF265 (dataAt 0x400 [1, 2, 3, 4] (State.reset.setReg 3 0x99)))
      (fun t => t.reg 0 == 1 && t.reg 1 == 2 && t.reg 2 == 3 && t.reg 3 == 0x99 && t.i == 0x400) = true := by decide

/-- M16, M17 (the glyph bytes are log entry 3's). -/
theorem test_loadRegs_ends_of_memory :
    nextHas (stepOn 0xF065 { regs 5 0 0 with i := 0xFFFF }) (fun t => t.report == some .addressOutOfRange && t.reg 0 == 5) =
      true ∧
    nextHas (stepOn 0xF465 State.reset) (fun t => t.v.toList.take 5 == [0xF0, 0x90, 0x90, 0x90, 0xF0]) = true := by decide

/-- Writing back what an unlisted address reads as leaves nothing listed: the canonical form. -/
theorem test_memory_canonical :
    Memory.write (Memory.write [] 0x300 5) 0x300 0 = [] ∧ Memory.write [] 0 0xF0 = [] ∧
    Memory.write (Memory.write [] 0x301 5) 0x300 6 = [(0x300, 6), (0x301, 5)] := by decide

/-! ### The display -/

/-- P1. -/
theorem test_cls :
    nextHas (stepOn 0x00E0 { regs 0 0 1 with px := blankDisplay.toggle 3 4 })
      (fun t => rowOn t 4 == [] && t.reg 15 == 1) = true := by decide

/-- P3, P5: wrap-around in both directions, pixel by pixel; partial overlap. -/
theorem test_drw_wraps_and_collides :
    nextHas (stepOn 0xD012 (dataAt 0x300 [0xC3, 0x81] (regs 62 31 1)))
      (fun t => rowOn t 31 == [4, 5, 62, 63] && rowOn t 0 == [5, 62] && t.reg 15 == 0) = true ∧
    nextHas (stepOn 0xD011 (dataAt 0x300 [0xC0] { State.reset with px := blankDisplay.toggle 1 0 }))
      (fun t => rowOn t 0 == [0] && t.reg 15 == 1) = true := by decide

/-- P8, P9. -/
theorem test_drw_rows_checked_first :
    nextHas (stepOn 0xD010 { regs 0 0 1 with i := 0xFFFF }) (fun t => t.report == none && t.reg 15 == 0) = true ∧
    nextHas (stepOn 0xD013 { regs 0 0 1 with i := 0xFFE })
      (fun t => t.report == some .addressOutOfRange && t.reg 15 == 1 && t.pc == 0x202) = true := by decide

/-! ### Keys and timers -/

/-- T1, T3. -/
theorem test_skp :
    nextHas (stepOn 0xE29E (keysDown [7] (State.reset.setReg 2 7))) (fun t => t.pc == 0x204) = true ∧
    nextHas (stepOn 0xE29E (State.reset.setReg 2 0x10)) (fun t => t.report == some .indexOutOfRange && t.pc == 0x202) =
      true := by decide

/-- T1, T2. -/
theorem test_sknp :
    nextHas (stepOn 0xE2A1 (keysDown [7] (State.reset.setReg 2 7))) (fun t => t.pc == 0x202) = true ∧
    nextHas (stepOn 0xE2A1 (State.reset.setReg 2 7)) (fun t => t.pc == 0x204) = true := by decide

/-- T5. -/
theorem test_ldVxDT : nextHas (stepOn 0xF307 { State.reset with dt := 0x2A }) (fun t => t.reg 3 == 0x2A && t.dt == 0x2A) =
    true := by decide

/-- T9, T11. -/
theorem test_ldVxK :
    nextHas (stepOn 0xF20A { State.reset.setReg 2 0x99 with dt := 0x2A }) (fun t => t.reg 2 == 0x2A && t.pc == 0x200) =
      true ∧
    nextHas (stepOn 0xF20A (keysDown [9, 3] State.reset)) (fun t => t.reg 2 == 3 && t.pc == 0x202) = true := by decide

/-- T6. -/
theorem test_ldDTVx : nextHas (stepOn 0xF015 (regs 0xFF 0 0)) (fun t => t.dt == 0xFF && t.st == 0) = true := by decide

/-- T7, T8. -/
theorem test_ldSTVx :
    nextHas (stepOn 0xF018 (regs 2 0 0)) (fun t => t.st == 2 && t.isBeeping) = true ∧
    nextHas (stepOn 0xF018 { regs 0 0 0 with st := 9 }) (fun t => t.st == 0 && !t.isBeeping) = true := by decide

/-! ### The operations of the host -/

/-- S10: one below zero stays zero. -/
theorem test_tickTimers :
    (State.tickTimers { State.reset with dt := 2, st := 1 }).dt = 1 ∧
    (State.tickTimers { State.reset with dt := 2, st := 1 }).st = 0 ∧ State.reset.tickTimers = State.reset := by decide

/-- S14, T16. -/
theorem test_setKey_range :
    answers (.setKey 16 true) State.reset State.reset (.result (some .indexOutOfRange)) = true ∧
    answers (.setKey (-1) true) State.reset State.reset (.result (some .indexOutOfRange)) = true ∧
    answers (.setKey 15 true) State.reset (keysDown [15] State.reset) (.result none) = true := by decide

/-- H2, H3: a second load replaces its own bytes and leaves the rest of the first program. -/
theorem test_load :
    answers (.load []) State.reset State.reset (.result none) = true ∧
    answers (.load [4]) (dataAt 0x200 [1, 2, 3] State.reset) (dataAt 0x200 [4, 2, 3] State.reset)
      (.result none) = true := by decide

/-- H1: reset withdraws a program, a key, a timer and the trace flag. -/
theorem test_reset :
    answers .reset (dataAt 0 [1, 2] (keysDown [3] { State.reset with st := 9, dbg := true, pc := 0x300 })) State.reset
      .done = true := by decide

/-- R180: row-major, so pixel (63, 1) is element 127. -/
theorem test_getDisplay :
    ((State.getDisplay { State.reset with px := blankDisplay.toggle 63 1 }).drop 126).take 3 = [false, true, false] := by
  decide

/-- H6. -/
theorem test_traced_step :
    nextHas (stepOn 0x6005 (State.reset.setTrace true)) (fun t => t.reg 0 == 5 && t.trace == some ⟨0x200, 0x6005⟩) = true := by
  decide

/-! ### Witnesses: the hypotheses of a statement, met together by concrete values

Each is named after its statement; `_a`, `_b` name the clauses, in order, at a boundary of their range. -/

theorem witness_DecodeFollowsTheOpcodeMap :
    decodeWord 0xFF65 = .ok (.loadRegs 15) ∧ (⟨0xF065, 0xF0FF⟩ : OpcodeRow) ∈ opcodeRows ∧
    (⟨0xF065, 0xF0FF⟩ : OpcodeRow).selectedBy 0xFF65 = true ∧
    opcodeRows.all (fun r => r.selectedBy 0xFFFF == false) = true ∧ fieldN1 0x00EE = 0 ∧ decodeWord 0x00EE = .ok .ret := by
  decide

theorem witness_DecodeOfEncodeIsTheInstruction : (Instr.drw 15 15 15).wf = true := by decide

theorem witness_EncodeOfDecodeIsTheWord : decodeWord 0x8FFE = .ok (.shl 15 15) := by decide

/-- The last fetchable address. -/
theorem witness_StepRunsTheDecodedInstruction :
    ({ State.reset with pc := 0xFFE } : State).pc.toNat ≤ 0xFFE ∧ State.reset.mem.read 0xFFE = 0 ∧
    State.reset.mem.read 0xFFF = 0 ∧ decode [0, 0] = .ok (.nop, []) ∧ Instr.nop.wf = true := by decide

theorem witness_FetchIsBigEndianAndChecked :
    ({ State.reset with pc := 0xFFE } : State).pc.toNat ≤ 0xFFE ∧
    0xFFE < ({ State.reset with pc := 0xFFF } : State).pc.toNat := by decide

theorem witness_UnsupportedWordIsReported :
    (State.reset.withFetchWord 16 0xFFFF).fetchWord = some 0xFFFF ∧
    opcodeRows.all (fun r => r.selectedBy 0xFFFF == false) = true := by decide

/-- A fetch error and a decode error; the same for `NoFaultLatch`. -/
theorem witness_ErrorsArePrecise :
    (∃ t, step { State.reset with pc := 0xFFF } = .next t ∧ t.report = some .addressOutOfRange) ∧
    (∃ t, step (State.reset.withFetchWord 16 0xFFFF) = .next t ∧ t.report = some .unsupportedInstruction) ∧
    (∃ t, step (State.reset.withFetchWord 16 0x00EE) = .next t ∧ t.report = some .stackUnderflow) :=
  ⟨⟨_, rfl, rfl⟩, ⟨_, rfl, rfl⟩, ⟨_, rfl, rfl⟩⟩

/-- Each error condition at the first value that meets it, and the last that does not. -/
theorem witness_ErrorsExactlyWhenTheirConditionHolds :
    State.reset.report = none ∧ meetsError .ret State.reset .stackUnderflow ∧
    meetsError (.call 0) (stackOf 16 0 State.reset) .stackOverflow ∧
    ¬ meetsError (.call 0) (stackOf 15 0 State.reset) .stackOverflow ∧
    meetsError (.skp 0) (regs 16 0 0) .indexOutOfRange ∧ ¬ meetsError (.sknp 0) (regs 15 0 0) .indexOutOfRange := by
  simp only [meetsError]; decide

theorem witness_ErrorsExactlyWhenTheirConditionHolds_ranges :
    meetsError (.drw 0 0 15) { State.reset with i := 0xFF2 } .addressOutOfRange ∧
    ¬ meetsError (.drw 0 0 15) { State.reset with i := 0xFF1 } .addressOutOfRange ∧
    meetsError (.ldBVx 0) { State.reset with i := 0xFFE } .addressOutOfRange ∧
    ¬ meetsError (.ldBVx 0) { State.reset with i := 0xFFD } .addressOutOfRange ∧
    meetsError (.storeRegs 15) { State.reset with i := 0xFF1 } .addressOutOfRange ∧
    ¬ meetsError (.loadRegs 15) { State.reset with i := 0xFF0 } .addressOutOfRange := by
  simp only [meetsError]; decide

theorem witness_TraceRecordPerFetchedWord : ∃ t, step (State.reset.setTrace true) = .next t := ⟨_, rfl⟩

/-- The two that store, where the last byte just fits and where it does not; and one that stores nothing. -/
theorem witness_InstructionsWriteOnlyTheirParts :
    (∃ t, exec (.ldBVx 0) { State.reset with i := 0xFFD } = .next t ∧ t.report = none) ∧
    (∃ t, exec (.ldBVx 0) { State.reset with i := 0xFFE } = .next t ∧ t.report = some .addressOutOfRange) ∧
    (∃ t, exec (.storeRegs 15) { State.reset with i := 0xFF0 } = .next t ∧ t.report = none) ∧
    (∃ t, exec (.storeRegs 15) { State.reset with i := 0xFF1 } = .next t ∧ t.report = some .addressOutOfRange) ∧
    ∃ t, exec .nop State.reset = .next t :=
  ⟨⟨_, rfl, rfl⟩, ⟨_, rfl, rfl⟩, ⟨_, rfl, rfl⟩, ⟨_, rfl, rfl⟩, ⟨_, rfl⟩⟩

/-- A step in which `DT` changes, and one in which `ST` changes. -/
theorem witness_StepsLeaveKeysAndTimersToTheHost :
    (∃ t, step ((regs 5 0 0).withFetchWord 16 0xF015) = .next t ∧ t.dt ≠ (regs 5 0 0).dt) ∧
    (∃ t, step ((regs 5 0 0).withFetchWord 16 0xF018) = .next t ∧ t.st ≠ (regs 5 0 0).st) :=
  ⟨⟨_, rfl, by decide⟩, ⟨_, rfl, by decide⟩⟩

/-- The bounds of the invariant are reached: `PC` = 0x10FE and a slot that holds 0x1000. -/
theorem witness_StepKeepsTheInvariant :
    Inv (stackOf 16 0x1000 { State.reset with pc := 0x10FE }) ∧
    ∃ t, step (stackOf 16 0x1000 { State.reset with pc := 0x10FE }) = .next t :=
  ⟨⟨by decide, by decide, by decide⟩, ⟨_, rfl⟩⟩

/-- An operation from a state at the bounds of the invariant, which no run reaches, and a reached state. -/
theorem witness_ReachableStatesMeetTheInvariant :
    Inv (stackOf 16 0x1000 { State.reset with pc := 0x10FE }) ∧
    (∃ t r, (HostOp.load [1, 2]).perform (stackOf 16 0x1000 { State.reset with pc := 0x10FE }) = .next (t, r)) ∧
    Reachable (State.reset.setTrace true) :=
  ⟨⟨by decide, by decide, by decide⟩, ⟨_, _, rfl⟩, .move _ _ (.setTrace true) .done (.powerOn []) rfl⟩

theorem witness_NopHasNoEffect :
    State.reset.fetchWord = some 0x0000 ∧ fieldN1 0x0FFF = 0 ∧ (0x0FFF : Word) ∉ [0x0000, 0x00E0, 0x00EE] := by decide

/-- From the last valid address past it. -/
theorem witness_LdISetsTheAddressRegister :
    ({ regs 1 0 0 with i := 0xFFF } : State).i.toNat ≤ 0xFFF ∧
    ∃ t, step (State.withFetchWord { regs 1 0 0 with i := 0xFFF } 16 0xF01E) = .next t ∧ 0xFFF < t.i.toNat :=
  ⟨by decide, _, rfl, by decide⟩

/-- The least sum above 0xFFE. -/
theorem witness_JpV0AddsRegisterZero : 0xFFE < ((regs 0xFF 0 0).reg 0).toNat + (0xF00 : Addr12).toNat := by decide

theorem witness_CallPushesAndJumps :
    (stackOf 15 0 State.reset).sp.val < 16 ∧ (stackOf 16 0 State.reset).sp.val = 16 := by decide

theorem witness_RetPopsThePc :
    0 < (stackOf 1 0x206 State.reset).sp.val ∧ (0 : Fin 16).val + 1 = (stackOf 1 0x206 State.reset).sp.val ∧
    (15 : Fin 16).val + 1 = (stackOf 16 0x206 State.reset).sp.val ∧ State.reset.sp.val = 0 := by decide

/-- The sixteenth call. -/
theorem witness_RetReturnsAfterTheCall :
    (stackOf 15 0x206 State.reset).sp.val < 16 ∧ (3 : Fin 16).val < (stackOf 15 0x206 State.reset).sp.val ∧
    ∃ t, exec (.call 0x300) (stackOf 15 0x206 State.reset) = .next t ∧ (t.setReg 1 7).stack = t.stack ∧
      (t.setReg 1 7).sp = t.sp :=
  ⟨by decide, by decide, _, rfl, rfl, rfl⟩

theorem witness_AdditionAndSubtractionSetTheFlag : (14 : RegIdx) ≠ 15 := by decide

theorem witness_ShiftsSetTheFlagBeforeTheResult : (0 : RegIdx) ≠ 15 := by decide

theorem witness_RandomByteIsMasked : ({ State.reset with rndIn := [0xB7] } : State).rndIn = 0xB7 :: [] := rfl

theorem witness_OnlyRandomInstructionUsesRnd_a :
    (State.reset.withFetchWord 16 0xC10F).fetchWord = some 0xC10F ∧ decodeWord 0xC10F = .ok (.rnd 1 0x0F) := by decide

theorem witness_OnlyRandomInstructionUsesRnd_b :
    ∀ w x nn, State.reset.fetchWord = some w → decodeWord w ≠ .ok (.rnd x nn) := by
  intro w x nn h
  have h0 : State.reset.fetchWord = some 0 := by decide
  rw [h0] at h
  cases h
  exact fun hd => absurd (hd.symm.trans (show decodeWord 0 = .ok .nop by decide)) (by simp)

theorem witness_BcdStoresThreeDigits :
    State.reset.mem.wf = true ∧ ({ State.reset with i := 0xFFD } : State).i.toNat + 2 ≤ 0xFFF ∧
    0xFFF < ({ State.reset with i := 0xFFE } : State).i.toNat + 2 := by decide

/-- Also of `LoadRegistersReadsTheRun`. -/
theorem witness_StoreRegistersWritesTheRun :
    State.reset.mem.wf = true ∧ ({ State.reset with i := 0xFF0 } : State).i.toNat + (15 : RegIdx).val ≤ 0xFFF ∧
    (15 : RegIdx) ≤ 15 ∧ 0xFFF < ({ State.reset with i := 0xFF1 } : State).i.toNat + (15 : RegIdx).val := by decide

theorem witness_BlockLoadUndoesBlockStore :
    State.reset.mem.wf = true ∧ (dataAt 0xFFF [] (regs 7 0 0)).i.toNat + (0 : RegIdx).val ≤ 0xFFF ∧
    ∃ t, exec (.storeRegs 0) (dataAt 0xFFF [] (regs 7 0 0)) = .next t ∧ (t.setReg 0 9).mem = t.mem ∧
      (t.setReg 0 9).i = t.i :=
  ⟨by decide, by decide, _, rfl, rfl, rfl⟩

/-- The last word of memory. -/
theorem witness_StoreIsSeenByTheNextFetch :
    State.reset.mem.wf = true ∧ ({ State.reset with i := 0xFFE, pc := 0xFFE } : State).i = 0xFFE ∧ 1 ≤ (1 : RegIdx).val ∧
    ({ State.reset with i := 0xFFE, pc := 0xFFE } : State).i.toNat + (1 : RegIdx).val ≤ 0xFFF := by decide

/-- A covered pixel and one that is not: the sprite byte 0x80 at (0, 0); fifteen rows that just fit. -/
theorem witness_DrawTogglesExactlyTheSpritePixels :
    (Instr.drw 0 1 15).wf = true ∧ ({ State.reset with i := 0xFF1 } : State).i.toNat + 15 - 1 ≤ 0xFFF ∧
    SpriteCovers (dataAt 0x300 [0x80] State.reset) 0 1 1 0 0 ∧ ¬ SpriteCovers (dataAt 0x300 [0x80] State.reset) 0 1 1 0 1 := by
  refine ⟨by decide, by decide, ⟨0, 0, by decide, by decide, by decide, by decide, by decide⟩, ?_⟩
  rintro ⟨r, c, hr, _, _, _, hy⟩
  have h0 : r = 0 := by omega
  subst h0
  exact absurd hy (by decide)

theorem witness_DrawTogglesExactlyTheSpritePixels_collision :
    SpriteCovers (dataAt 0x300 [0x80] { State.reset with px := blankDisplay.toggle 0 0 }) 0 1 1 0 0 ∧
    (blankDisplay.toggle 0 0).get 0 0 = true :=
  ⟨⟨0, 0, by decide, by decide, by decide, by decide, by decide⟩, by decide⟩

theorem witness_DrawTogglesExactlyTheSpritePixels_noCollision :
    ¬ ∃ px py, SpriteCovers State.reset 0 1 0 px py ∧ State.reset.px.get px py = true := by
  rintro ⟨_, _, ⟨r, _, hr, _⟩, _⟩
  exact absurd hr (Nat.not_lt_zero r)

theorem witness_DrawingTwiceRestoresTheDisplay :
    (Instr.drw 0 1 1).wf = true ∧ (dataAt 0xFFF [0xFF] State.reset).i.toNat + 1 - 1 ≤ 0xFFF ∧
    ∃ t, exec (.drw 0 1 1) (dataAt 0xFFF [0xFF] State.reset) = .next t ∧
      t.mem = (dataAt 0xFFF [0xFF] State.reset).mem ∧ t.i = 0xFFF ∧ t.reg 0 = State.reset.reg 0 ∧
      t.reg 1 = State.reset.reg 1 :=
  ⟨by decide, by decide, _, rfl, by decide, by decide, by decide, by decide⟩

theorem witness_DrawChecksItsRowsFirst : 1 ≤ 15 ∧ 0xFFF < ({ State.reset with i := 0xFF2 } : State).i.toNat + 15 - 1 := by
  decide

theorem witness_KeySkipsReadTheKey :
    ((regs 15 0 0).reg 0).toNat = (15 : Fin 16).val ∧ 15 < ((regs 16 0 0).reg 0).toNat := by decide

/-- The only key down is the last one; no key down; the instruction fetched with no key down. -/
theorem witness_WaitForKeyTakesTheLowestKeyOrStays :
    (keysDown [15] State.reset).key[(15 : Fin 16)] = true ∧
    (∀ j : Fin 16, j < 15 → (keysDown [15] State.reset).key[j] = false) ∧
    (∀ j : Fin 16, (State.reset.withFetchWord 16 0xF20A).key[j] = false) ∧
    (State.reset.withFetchWord 16 0xF20A).fetchWord = some 0xF20A ∧ decodeWord 0xF20A = .ok (.ldVxK 2) := by decide

/-- The longest program that fits, and the shortest that does not. -/
theorem witness_LoadCopiesOrRejects :
    State.reset.mem.wf = true ∧ (List.replicate 3584 (7 : Byte)).length ≤ 3584 ∧
    3584 < (List.replicate 3585 (7 : Byte)).length := by
  exact ⟨by decide, by rw [List.length_replicate], by rw [List.length_replicate]; decide⟩

theorem witness_SetKeySetsOneKey : (0 : Int) ≤ 15 ∧ (15 : Int) ≤ 15 ∧ (-1 : Int) < 0 ∧ (15 : Int) < 16 := by decide

theorem witness_ParkedCoreStaysParked :
    Parked (State.reset.withFetchWord 16 0x1200) ∧
    ∃ t, (State.reset.withFetchWord 16 0x1200).setKey 7 true = .ok t :=
  ⟨⟨0x1200, 0x200, by decide, by decide, by decide⟩, ⟨_, rfl⟩⟩

theorem witness_EmptyMemoryRunsNoOps : 1792 ≤ 1792 ∧ runSteps 1 State.reset = .next { State.reset with pc := 0x202 } :=
  ⟨by decide, rfl⟩

end Sys2Proof.Tests
end

