-- ==== Sys2Proof/Proofs/Reset.lean ====
section
/-! PROOF. The state after power-on, `construct()` and `reset()` (10_state.md R37): what unlisted memory reads as, the reset
values of `State.reset`, and O20. -/

namespace Sys2Proof.Machine

/-! ### The reset image of memory (R34, R37) -/

theorem length_glyphRom : glyphRom.length = 80 := rfl

/-- Only the length of the glyph table is used, none of its presumed bytes. -/
theorem some_unlisted_eq_glyphRom {a : Nat} (ha : a < 80) : some (unlisted a) = glyphRom[a]? := by
  have hlen : a < glyphRom.length := by rwa [length_glyphRom]
  rw [unlisted, if_pos ha, List.getD_eq_getElem _ _ hlen, List.getElem?_eq_getElem hlen]

theorem unlisted_eq_zero {a : Nat} (ha : 80 ≤ a) : unlisted a = 0 := if_neg (Nat.not_lt.mpr ha)

@[simp] theorem reset_read (a : Nat) : State.reset.mem.read a = unlisted a := rfl

/-! ### The other parts at reset -/

@[simp] theorem reset_reg (r : RegIdx) : State.reset.reg r = 0 := Vector.getElem_replicate r.isLt

theorem reset_stack (k : Fin 16) : State.reset.stack[k] = 0 := Vector.getElem_replicate k.isLt

theorem reset_key (k : Fin 16) : State.reset.key[k] = false := Vector.getElem_replicate k.isLt

@[simp] theorem reset_px (x : Fin 64) (y : Fin 32) : State.reset.px.get x y = false := get_blankDisplay x y

@[simp] theorem reset_isBeeping : State.reset.isBeeping = false := rfl

/-! ### The reset values -/

theorem reset_hasResetValues : HasResetValues State.reset := by
  have hglyph (a : Nat) (ha : a < 80) : some (State.reset.mem.read a) = glyphRom[a]? := some_unlisted_eq_glyphRom ha
  have hzero (a : Nat) (ha : 80 ≤ a) (_ : a < 4096) : State.reset.mem.read a = 0 := unlisted_eq_zero ha
  exact ⟨reset_reg, rfl, rfl, rfl, reset_stack, rfl, rfl, reset_isBeeping, reset_key, reset_px, hglyph, hzero, rfl⟩

/-- The reset values say nothing of the random source, which stands outside the core (R36). -/
theorem HasResetValues.withRandom {t : State} (h : HasResetValues t) (bytes : List Byte) (drawn : Nat) :
    HasResetValues { t with rndIn := bytes, rndDrawn := drawn } := h

theorem afterReset_hasResetValues (s : State) : HasResetValues s.afterReset :=
  reset_hasResetValues.withRandom s.rndIn s.rndDrawn

theorem perform_construct (s : State) : HostOp.construct.perform s = .next (s.afterReset, .done) := rfl

theorem perform_reset (s : State) : HostOp.reset.perform s = .next (s.afterReset, .done) := rfl

/-- Settles O20: `construct()` and `reset()` both end in `s.afterReset`, the constant reset state but for the random
source. -/
theorem resetGivesTheResetValues : Obligations.ResetGivesTheResetValues :=
  ⟨reset_hasResetValues, length_glyphRom, fun s =>
    ⟨s.afterReset, perform_construct s, perform_reset s, afterReset_hasResetValues s⟩⟩

end Sys2Proof.Machine
end

