-- ==== Sys2Proof/Proofs/Encoding.lean ====
section
/-! PROOF. The decoder and the opcode map (30_encoding.md R74 to R76): every word the decoder accepts is the encoding of the
instruction it reads, every word that selects a row decodes to an instruction of that row, and O2. -/

namespace Sys2Proof

variable {w : Word} {i : Instr}

/-! ### A word with known fields is a layout of them (R72) -/

theorem layoutNNN_of_class {c : Nibble} (hc : (fieldN1 w).toNat = c.toNat) : layoutNNN c (fieldNNN w) = w := by
  rw [← BitVec.eq_of_toNat_eq hc, layoutNNN_of_fields]

theorem layoutXNN_of_class {c : Nibble} (hc : (fieldN1 w).toNat = c.toNat) :
    layoutXNN c (nibbleReg (fieldX w)) (fieldNN w) = w := by
  rw [← BitVec.eq_of_toNat_eq hc, layoutXNN_of_fields]

theorem layoutX_of_class_byte {c : Nibble} {nn : Byte} (hc : (fieldN1 w).toNat = c.toNat)
    (hnn : (fieldNN w).toNat = nn.toNat) : layoutXNN c (nibbleReg (fieldX w)) nn = w := by
  rw [← BitVec.eq_of_toNat_eq hnn, layoutXNN_of_class hc]

theorem layoutXYN_of_class_nibble {c n : Nibble} (hc : (fieldN1 w).toNat = c.toNat)
    (hn : (fieldN w).toNat = n.toNat) : layoutXYN c (nibbleReg (fieldX w)) (nibbleReg (fieldY w)) n = w := by
  rw [← BitVec.eq_of_toNat_eq hc, ← BitVec.eq_of_toNat_eq hn, layoutXYN_of_fields]

/-! ### What the decoder answers -/

/-- The decoder rejects a word by no name but R76's. -/
theorem eq_unsupported_of_decodeWord_error {e : DecodeError} (h : decodeWord w = .error e) : e = .unsupported w := by
  revert h
  fun_cases decodeWord w <;> intro h <;> cases h <;> rfl

theorem encodeWord_of_decodeWord (h : decodeWord w = .ok i) : encodeWord i = w := by
  revert h
  fun_cases decodeWord w <;> intro h <;> cases h
  -- the three words of class 0
  case case1 | case2 | case3 => exact Eq.symm ‹_›
  -- layout `NNN`: classes 1, 2, A, B
  case case5 | case6 | case25 | case26 => exact layoutNNN_of_class ‹_›
  -- layout `XNN`: classes 3, 4, 6, 7, C
  case case7 | case8 | case11 | case12 | case27 => exact layoutXNN_of_class ‹_›
  -- layout `XYN`: class D
  case case28 hc => exact layoutXYN_of_class_nibble hc (by simp)
  -- layout `XY`: classes 5 and 9, then class 8
  case case9 hc hn | case23 hc hn => exact layoutXYN_of_class_nibble hc (congrArg BitVec.toNat hn)
  case case13 | case14 | case15 | case16 | case17 | case18 | case19 | case20 | case21 =>
    exact layoutXYN_of_class_nibble ‹_› ‹_›
  -- layout `X`: class E, then class F
  case case29 hc hnn | case30 hc _ hnn => exact layoutX_of_class_byte hc (congrArg BitVec.toNat hnn)
  case case32 | case33 | case34 | case35 | case36 | case37 | case38 | case39 | case40 =>
    exact layoutX_of_class_byte ‹_› ‹_›

/-- The family `RowMatch`, for any instruction. -/
theorem row_selectedBy_encodeWord (i : Instr) : i.row.selectedBy (encodeWord i) = true := by
  open Laws.RowMatch in
  cases i
  exacts [nop, cls, ret, jp _, call _, seImm _ _, sneImm _ _, seReg _ _, ldImm _ _, addImm _ _, ldReg _ _, orReg _ _,
    andReg _ _, xorReg _ _, addReg _ _, subReg _ _, shr _ _, subnReg _ _, shl _ _, sneReg _ _, ldI _, jpV0 _, rnd _ _,
    drw _ _ _, skp _, sknp _, ldVxDT _, ldVxK _, ldDTVx _, ldSTVx _, addIVx _, ldFVx _, ldBVx _, storeRegs _, loadRegs _]

theorem row_selectedBy_of_decodeWord (h : decodeWord w = .ok i) : i.row.selectedBy w = true := by
  have hrow := row_selectedBy_encodeWord i
  rwa [encodeWord_of_decodeWord h] at hrow

/-! ### What selecting a row says of the fields (R74) -/

theorem class_of_selectedBy {p : Word} (h : (⟨p, 0xF000⟩ : OpcodeRow).selectedBy w = true) :
    fieldN1 w = fieldN1 p := by
  rw [selectedBy_class] at h
  simp only [← BitVec.toNat_inj, toNat_fieldN1]
  omega

theorem class_nibble_of_selectedBy {p : Word} (h : (⟨p, 0xF00F⟩ : OpcodeRow).selectedBy w = true) :
    fieldN1 w = fieldN1 p ∧ fieldN w = fieldN p := by
  rw [selectedBy_classNibble] at h
  simp only [← BitVec.toNat_inj, toNat_fieldN1, toNat_fieldN]
  omega

theorem class_byte_of_selectedBy {p : Word} (h : (⟨p, 0xF0FF⟩ : OpcodeRow).selectedBy w = true) :
    fieldN1 w = fieldN1 p ∧ fieldNN w = fieldNN p := by
  rw [selectedBy_classByte] at h
  simp only [← BitVec.toNat_inj, toNat_fieldN1, toNat_fieldNN]
  omega

/-! ### A word that selects a row decodes to an instruction of that row -/

/-- The table lists the rows of the 35 instructions in the order of `Instr`. -/
theorem opcodeRows_eq_map_row : opcodeRows = List.map Instr.row
    [.nop, .cls, .ret, .jp 0, .call 0, .seImm 0 0, .sneImm 0 0, .seReg 0 0, .ldImm 0 0, .addImm 0 0, .ldReg 0 0, .orReg 0 0,
     .andReg 0 0, .xorReg 0 0, .addReg 0 0, .subReg 0 0, .shr 0 0, .subnReg 0 0, .shl 0 0, .sneReg 0 0, .ldI 0, .jpV0 0,
     .rnd 0 0, .drw 0 0 0, .skp 0, .sknp 0, .ldVxDT 0, .ldVxK 0, .ldDTVx 0, .ldSTVx 0, .addIVx 0, .ldFVx 0, .ldBVx 0,
     .storeRegs 0, .loadRegs 0] := rfl

theorem exists_row_eq {r : OpcodeRow} (h : r ∈ opcodeRows) : ∃ i : Instr, i.row = r := by
  rw [opcodeRows_eq_map_row] at h
  obtain ⟨i, -, hi⟩ := List.mem_map.mp h
  exact ⟨i, hi⟩

/-- The mask of the row tells which fields of the word are known, and these are the fields the decoder branches on. -/
theorem decodeWord_of_row_selectedBy (h : i.row.selectedBy w = true) : ∃ j, decodeWord w = .ok j ∧ j.row = i.row := by
  cases i
  case nop | cls | ret =>
    rw [(selectedBy_all _ _).mp h]
    exact ⟨_, rfl, rfl⟩
  case seReg | ldReg | orReg | andReg | xorReg | addReg | subReg | shr | subnReg | shl | sneReg =>
    obtain ⟨hc, hn⟩ := class_nibble_of_selectedBy h
    rw [decodeWord, hc, hn]
    exact ⟨_, rfl, rfl⟩
  case skp | sknp | ldVxDT | ldVxK | ldDTVx | ldSTVx | addIVx | ldFVx | ldBVx | storeRegs | loadRegs =>
    obtain ⟨hc, hnn⟩ := class_byte_of_selectedBy h
    rw [decodeWord, hc, hnn]
    exact ⟨_, rfl, rfl⟩
  case jp | call | seImm | sneImm | ldImm | addImm | ldI | jpV0 | rnd | drw =>
    have hc := class_of_selectedBy h
    rw [decodeWord, hc]
    exact ⟨_, rfl, rfl⟩

theorem exists_decodeWord_of_selectedBy {r : OpcodeRow} (hr : r ∈ opcodeRows) (h : r.selectedBy w = true) :
    ∃ i, decodeWord w = .ok i ∧ i.row = r := by
  obtain ⟨i, rfl⟩ := exists_row_eq hr
  exact decodeWord_of_row_selectedBy h

/-- The rows are pairwise disjoint (R74), since a word decodes to one instruction. -/
theorem opcodeRows_disjoint {r r' : OpcodeRow} (hr : r ∈ opcodeRows) (hr' : r' ∈ opcodeRows)
    (h : r.selectedBy w = true) (h' : r'.selectedBy w = true) : r = r' := by
  obtain ⟨i, hi, rfl⟩ := exists_decodeWord_of_selectedBy hr h
  obtain ⟨j, hj, rfl⟩ := exists_decodeWord_of_selectedBy hr' h'
  rw [Except.ok.inj (hi.symm.trans hj)]

theorem decodeWord_of_no_row (h : ∀ r ∈ opcodeRows, r.selectedBy w = false) :
    decodeWord w = .error (.unsupported w) := by
  cases hd : decodeWord w with
  | ok i => exact absurd (row_selectedBy_of_decodeWord hd) (Bool.eq_false_iff.mp (h _ (row_mem_opcodeRows i)))
  | error e => rw [eq_unsupported_of_decodeWord_error hd]

/-- The `FIXED` rows are the only ones of class 0 (R74). -/
theorem eq_fixed_of_class_zero (h0 : fieldN1 w = 0) (h : decodeWord w = .ok i) :
    w = 0x0000 ∨ w = 0x00E0 ∨ w = 0x00EE := by
  rw [← encodeWord_of_decodeWord h] at h0 ⊢
  cases i
  case nop | cls | ret => simp [encodeWord]
  all_goals simp [encodeWord] at h0

/-- Settles O2: decoding and selecting a row imply each other, with the same row; the other parts follow. -/
theorem decodeFollowsTheOpcodeMap : Obligations.DecodeFollowsTheOpcodeMap := fun _ =>
  ⟨fun i h => ⟨row_mem_opcodeRows i, row_selectedBy_of_decodeWord h⟩,
    fun _ => exists_decodeWord_of_selectedBy,
    fun _ hr _ hr' => opcodeRows_disjoint hr hr',
    decodeWord_of_no_row,
    fun h0 _ => eq_fixed_of_class_zero h0⟩

end Sys2Proof
end

