-- ==== Sys2Proof/Proofs/ControlFlow.lean ====
section
/-! PROOF. The instruction cycle (40_control_flow.md R100), the no-op `0000` (R101), the jump `1nnn` (R103) and the four
skips on register values (R106 to R110), with O21, O22 and O27. -/

namespace Sys2Proof

/-! ### The class of the no-op (R76, R101) -/

theorem decodeWord_of_class_zero_of_not_fixed {w : Word} (h0 : fieldN1 w = 0)
    (hw : w ∉ [0x0000, 0x00E0, 0x00EE]) : decodeWord w = .error (.unsupported w) := by
  cases hd : decodeWord w with
  | ok i => exact absurd (by simpa using eq_fixed_of_class_zero h0 hd) hw
  | error e => rw [eq_unsupported_of_decodeWord_error hd]

end Sys2Proof

namespace Sys2Proof.Machine

variable {s : State} {w : Word} {i : Instr}

/-! ### The instruction cycle (R100) -/

theorem step_of_decodeWord (hw : s.fetchWord = some w) (hd : decodeWord w = .ok i) : step s = exec i (s.fetched w) := by
  simp only [step, hw, hd]

/-- A successful fetch leaves room for `PC + 2`: it does not wrap. -/
theorem toNat_fetched_pc (hw : s.fetchWord = some w) : (s.fetched w).pc.toNat = s.pc.toNat + 2 := by
  obtain ⟨hpc, -⟩ | ⟨-, hnone⟩ := fetchWord_cases s
  · rw [fetched_pc]
    bv_omega
  · simp [hnone] at hw

/-- A failing fetch (R54): the error is the step's only output, and nothing else changes. -/
theorem step_of_unfetchable_pc (hpc : 0xFFE < s.pc.toNat) : step s = raise .addressOutOfRange s.quietOutputs := by
  obtain ⟨hle, -⟩ | ⟨-, hnone⟩ := fetchWord_cases s
  · omega
  · simp only [step, hnone]

/-! ### The no-op (R101) -/

theorem exec_nop (s : State) : exec .nop s = .next s := rfl

theorem step_of_nop (hw : s.fetchWord = some 0x0000) : step s = .next (s.fetched 0x0000) := by
  rw [step_of_decodeWord hw rfl, exec_nop]

/-- Settles O21: a step that fetches 0x0000 ends in the fetched state. -/
theorem nopHasNoEffect : Obligations.NopHasNoEffect :=
  ⟨rfl, fun _ => decodeWord_of_class_zero_of_not_fixed, exec_nop, fun s hw =>
    ⟨s.fetched 0x0000, step_of_nop hw, fetched_report s _, toNat_fetched_pc hw, frame_fetched s _⟩⟩

/-! ### The jump (R103) -/

theorem exec_jp (nnn : Addr12) (s : State) : exec (.jp nnn) s = .next (s.setPc (zextAddr nnn)) := rfl

/-- Settles O22: 0xFFF is the one 12-bit address from which no word can be fetched. -/
theorem jpSetsPc : Obligations.JpSetsPc := by
  intro nnn s
  refine ⟨_, exec_jp nnn s, toNat_zextAddr nnn, frame_setPc s _, ?_⟩
  rintro rfl
  have hpc : 0xFFE < (s.setPc (zextAddr 0xFFF)).pc.toNat := by
    rw [setPc_pc, toNat_zextAddr]
    decide
  exact ⟨_, step_of_unfetchable_pc hpc, rfl⟩

/-! ### The skips (R106 to R110) -/

theorem exec_seImm (x : RegIdx) (nn : Byte) (s : State) :
    exec (.seImm x nn) s = .next (s.skipIf (s.reg x == nn)) := rfl

theorem exec_sneImm (x : RegIdx) (nn : Byte) (s : State) :
    exec (.sneImm x nn) s = .next (s.skipIf (s.reg x != nn)) := rfl

theorem exec_seReg (x y : RegIdx) (s : State) :
    exec (.seReg x y) s = .next (s.skipIf (s.reg x == s.reg y)) := rfl

theorem exec_sneReg (x y : RegIdx) (s : State) :
    exec (.sneReg x y) s = .next (s.skipIf (s.reg x != s.reg y)) := rfl

theorem frame_skipIf (s : State) (c : Bool) : Frame [.pc] s (s.skipIf c) := by
  rw [skipIf_eq]
  exact frame_setPc s _

@[simp] theorem skipIf_pc (s : State) (c : Bool) : (s.skipIf c).pc = if c then s.pc + 2 else s.pc := by
  rw [skipIf_eq, setPc_pc]

theorem skipIf_beq_pc (s : State) (a b : Byte) : (s.skipIf (a == b)).pc = if a = b then s.pc + 2 else s.pc := by
  simp only [skipIf_pc, beq_iff_eq]

theorem skipIf_bne_pc (s : State) (a b : Byte) : (s.skipIf (a != b)).pc = if a = b then s.pc else s.pc + 2 := by
  simp only [skipIf_pc, bne_iff_ne, ite_not]

/-- Settles O27: each of the four is one conditional skip, on the equality or the difference of two bytes. -/
theorem skipsCompareAndSkip : Obligations.SkipsCompareAndSkip := fun x y nn s =>
  ⟨⟨_, exec_seImm x nn s, skipIf_beq_pc s _ _, frame_skipIf s _⟩,
    ⟨_, exec_sneImm x nn s, skipIf_bne_pc s _ _, frame_skipIf s _⟩,
    ⟨_, exec_seReg x y s, skipIf_beq_pc s _ _, frame_skipIf s _⟩,
    ⟨_, exec_sneReg x y s, skipIf_bne_pc s _ _, frame_skipIf s _⟩⟩

end Sys2Proof.Machine
end

