-- ==== Sys2Proof/Proofs/LoadAlu.lean ====
section
/-! PROOF. The loads `6xnn` and `8xy0` and the flagless addition `7xnn` (41_load_alu.md R121 to R123), with O28. -/

namespace Sys2Proof.Machine

theorem setReg_reg_self (s : State) (x : RegIdx) (b : Byte) : (s.setReg x b).reg x = b := by
  rw [setReg_reg, if_pos rfl]

theorem exec_ldImm (x : RegIdx) (nn : Byte) (s : State) : exec (.ldImm x nn) s = .next (s.setReg x nn) := rfl

theorem exec_addImm (x : RegIdx) (nn : Byte) (s : State) :
    exec (.addImm x nn) s = .next (s.setReg x (s.reg x + nn)) := rfl

theorem exec_ldReg (x y : RegIdx) (s : State) : exec (.ldReg x y) s = .next (s.setReg x (s.reg y)) := rfl

theorem toNat_setReg_add_reg_self (s : State) (x : RegIdx) (a b : Byte) :
    ((s.setReg x (a + b)).reg x).toNat = (a.toNat + b.toNat) % 256 := by
  rw [setReg_reg_self, BitVec.toNat_add]

/-- Settles O28: each of the three is one register write. -/
theorem loadsCopiesAndAddImmediate : Obligations.LoadsCopiesAndAddImmediate := fun x y nn s =>
  ⟨⟨_, exec_ldImm x nn s, setReg_reg_self s x nn, frame_setReg s x nn⟩,
    ⟨_, exec_addImm x nn s, toNat_setReg_add_reg_self s x _ nn, frame_setReg s x _⟩,
    ⟨_, exec_ldReg x y s, setReg_reg_self s x _, frame_setReg s x _⟩⟩

end Sys2Proof.Machine
end

