-- ==== Sys2Proof/Proofs/IndexMemory.lean ====
section
/-! PROOF. The address register (42_index_memory.md): the load `Annn` (R140), what each shared operation and each
instruction leaves of `I`, what a step can do at all, and O34. -/

namespace Sys2Proof.Machine

variable {s t : State} {i : Instr}

/-! ### Operations that leave `I` -/

@[simp] theorem skipIf_i (s : State) (c : Bool) : (s.skipIf c).i = s.i := by rw [skipIf_eq, setPc_i]

@[simp] theorem setResultAndFlag_i (o : Config.VfOrder) (s : State) (x : RegIdx) (b : Byte) (f : Bool) :
    (s.setResultAndFlag o x b f).i = s.i := by
  cases o <;> rfl

@[simp] theorem setRegsFrom_i (bs : List Byte) (s : State) (r : Nat) : (s.setRegsFrom r bs).i = s.i := by
  rw [setRegsFrom_eq]

@[simp] theorem drawRnd_i (s : State) : s.drawRnd.2.i = s.i := by
  obtain ⟨_, _, _, hdraw⟩ | ⟨_, hdraw⟩ := drawRnd_cases s <;> rw [hdraw]

theorem raise_i {e : ErrorKind} (h : raise e s = .next t) : t.i = s.i := by
  cases h
  rfl

theorem push_i {a : Word} (h : s.push a = some t) : t.i = s.i := by
  obtain ⟨_, hpush⟩ | ⟨_, hpush⟩ := push_cases s a <;> rw [hpush] at h <;> cases h
  rfl

theorem pop_i {a : Word} (h : s.pop = some (a, t)) : t.i = s.i := by
  obtain ⟨_, hpop⟩ | ⟨_, hpop⟩ := pop_cases s <;> rw [hpop] at h <;> cases h
  rfl

theorem writeData_i {bs : List Byte} (h : s.writeData bs = some t) : t.i = s.i := by
  obtain ⟨_, hwrite⟩ | ⟨_, hwrite⟩ := writeData_cases s bs <;> rw [hwrite] at h <;> cases h
  rfl

/-! ### Instructions and `I` (R24) -/

theorem zextAddr_le (nnn : Addr12) : (zextAddr nnn).toNat ≤ 0xFFF := by
  rw [toNat_zextAddr]
  omega

theorem exec_ldI (nnn : Addr12) (s : State) : exec (.ldI nnn) s = .next (s.setI (zextAddr nnn)) := rfl

theorem exec_ldFVx (x : RegIdx) (s : State) : exec (.ldFVx x) s = .next (s.setI (glyphAddress (s.reg x))) := rfl

/-- `Annn`, `Fx1E` and `Fx29` are the only writers of `I`. -/
theorem exec_i_of_notMem_mayWrite (h : exec i s = .next t) (hi : Part.addr ∉ mayWrite i) : t.i = s.i := by
  cases i
  case ldI | addIVx | ldFVx => simp [mayWrite] at hi
  -- the instructions that can report an error: the operation that succeeds leaves `I`, and so does the report
  case ret =>
    simp only [exec, execRet] at h
    split at h
    next hpop =>
      cases h
      rw [setPc_i, pop_i hpop]
    next => exact raise_i h
  case call =>
    simp only [exec, execCall] at h
    split at h
    next hpush =>
      cases h
      rw [setPc_i, push_i hpush]
    next => exact raise_i h
  case ldBVx | storeRegs =>
    simp only [exec, execLdBVx, execStoreRegs] at h
    split at h
    next hwrite =>
      cases h
      exact writeData_i hwrite
    next => exact raise_i h
  case drw | skp | sknp | loadRegs =>
    simp only [exec, execDrw, execSkp, execSknp, execLoadRegs] at h
    split at h
    next =>
      cases h
      simp
    next => exact raise_i h
  -- the key wait has two successes
  case ldVxK =>
    simp only [exec, execLdVxK] at h
    split at h <;> cases h <;> simp
  -- one update each, known to leave `I`
  case nop | cls | jp | jpV0 | seImm | sneImm | seReg | sneReg | ldImm | addImm | ldReg | orReg | andReg | xorReg | addReg
      | subReg | shr | subnReg | shl | rnd | ldVxDT | ldDTVx | ldSTVx =>
    cases h
    simp

/-- A 12-bit address is at most 0xFFF and a glyph address at most 255 * 5 = 0x4FB, so only `Fx1E` can pass the bound. -/
theorem exec_i_le_of_ne_addIVx (h : exec i s = .next t) (hs : s.i.toNat ≤ 0xFFF) (hi : ∀ x, i ≠ .addIVx x) :
    t.i.toNat ≤ 0xFFF := by
  cases i
  case addIVx x => exact absurd rfl (hi x)
  case ldI nnn =>
    rw [exec_ldI] at h
    cases h
    exact zextAddr_le nnn
  case ldFVx x =>
    rw [exec_ldFVx] at h
    cases h
    rw [setI_i, toNat_glyphAddress]
    omega
  all_goals rwa [exec_i_of_notMem_mayWrite h (by simp [mayWrite, regParts])]

/-! ### The instruction cycle (R100) -/

/-- Everything a step can do. -/
theorem step_cases (s : State) :
    (s.fetchWord = none ∧ step s = raise .addressOutOfRange s.quietOutputs) ∨
    (∃ w e, s.fetchWord = some w ∧ decodeWord w = .error e ∧ step s = raise .unsupportedInstruction (s.fetched w)) ∨
    (∃ w i, s.fetchWord = some w ∧ decodeWord w = .ok i ∧ step s = exec i (s.fetched w)) := by
  cases hw : s.fetchWord with
  | none => exact .inl ⟨rfl, by simp only [step, hw]⟩
  | some w =>
    cases hd : decodeWord w with
    | error e => exact .inr (.inl ⟨w, e, rfl, hd, by simp only [step, hw, hd]⟩)
    | ok i => exact .inr (.inr ⟨w, i, rfl, hd, step_of_decodeWord hw hd⟩)

theorem step_runs_addIVx_of_i_gt (h : step s = .next t) (hs : s.i.toNat ≤ 0xFFF) (ht : 0xFFF < t.i.toNat) :
    ∃ w x, s.fetchWord = some w ∧ decodeWord w = .ok (.addIVx x) := by
  have hne : t.i ≠ s.i := fun heq => by rw [heq] at ht; omega
  obtain ⟨-, he⟩ | ⟨w, e, -, -, he⟩ | ⟨w, i, hw, hd, he⟩ := step_cases s <;> rw [he] at h
  · exact absurd (raise_i h) hne
  · exact absurd (raise_i h) hne
  · by_contra! hno
    have hle := exec_i_le_of_ne_addIVx h hs fun x hx => hno w x hw (hx ▸ hd)
    omega

/-- Settles O34: every writer of `I` but `Fx1E` keeps it within 0xFFF, and so does a step that reports a fetch or decode
error. -/
theorem ldISetsTheAddressRegister : Obligations.LdISetsTheAddressRegister :=
  ⟨fun nnn s => ⟨_, exec_ldI nnn s, toNat_zextAddr nnn, zextAddr_le nnn, frame_setI s _⟩,
    fun _ _ => step_runs_addIVx_of_i_gt⟩

end Sys2Proof.Machine
end

section
/-! PROOF. The display clear `00E0` (43_display.md R151), with O41. -/

namespace Sys2Proof.Machine

/-- The frame of a write of the whole pixel grid. -/
theorem frame_withPx (s : State) (d : Display) : Frame [.display] s { s with px := d } := by
  intro p hp
  cases p <;> simp_all [Part.same, State.reg]

theorem exec_cls (s : State) : exec .cls s = .next { s with px := blankDisplay } := rfl

/-- Settles O41: `00E0` is one write of the pixel grid, and every pixel of the grid it writes is off. -/
theorem clsTurnsEveryPixelOff : Obligations.ClsTurnsEveryPixelOff := fun s =>
  ⟨_, exec_cls s, get_blankDisplay, frame_withPx s blankDisplay⟩

end Sys2Proof.Machine
end

section
/-! PROOF. The timers (44_keypad_timers.md): `Fx07`, `Fx15` and `Fx18` (R163, R165, R166), the beep (R181), with O46. -/

namespace Sys2Proof.Machine

/-- The beep flag is whether `ST` is not 0 (R181). -/
theorem isBeeping_eq_true_iff (s : State) : s.isBeeping = true ↔ s.st ≠ 0 := by
  rw [State.isBeeping, decide_eq_true_iff]
  bv_omega

/-- The frame of a write of the delay timer. -/
theorem frame_withDt (s : State) (b : Byte) : Frame [.delay] s { s with dt := b } := by
  intro p hp
  cases p <;> simp_all [Part.same, State.reg]

/-- The frame of a write of the sound timer. -/
theorem frame_withSt (s : State) (b : Byte) : Frame [.sound] s { s with st := b } := by
  intro p hp
  cases p <;> simp_all [Part.same, State.reg]

theorem exec_ldVxDT (x : RegIdx) (s : State) : exec (.ldVxDT x) s = .next (s.setReg x s.dt) := rfl

theorem exec_ldDTVx (x : RegIdx) (s : State) : exec (.ldDTVx x) s = .next { s with dt := s.reg x } := rfl

theorem exec_ldSTVx (x : RegIdx) (s : State) : exec (.ldSTVx x) s = .next { s with st := s.reg x } := rfl

/-- Settles O46: `Fx07` is one register write, `Fx15` and `Fx18` are one timer write each, and the beep follows the sound
timer written. -/
theorem timerInstructionsMoveTheTimers : Obligations.TimerInstructionsMoveTheTimers := fun x s =>
  ⟨⟨_, exec_ldVxDT x s, setReg_reg_self s x _, frame_setReg s x _⟩,
    ⟨_, exec_ldDTVx x s, rfl, frame_withDt s _⟩,
    ⟨_, exec_ldSTVx x s, rfl, isBeeping_eq_true_iff _, frame_withSt s _⟩⟩

end Sys2Proof.Machine
end

section
/-! PROOF. The trace port (60_exceptions.md R220, R221): no operation and no instruction reads the switch `DBG` or the
record emitted, so a step commutes with setting them; with O13. -/

namespace Sys2Proof.Machine

/-- `s` with its tracing parts replaced: the switch `DBG` (R35) and the record emitted (R220). -/
def State.withTracing (s : State) (b : Bool) (r : Option TraceRecord) : State := { s with dbg := b, trace := r }

section

variable (s : State) (b : Bool) (r : Option TraceRecord)

/-! ### Operations and the tracing parts -/

@[simp] theorem withTracing_pc : (s.withTracing b r).pc = s.pc := rfl
@[simp] theorem withTracing_key : (s.withTracing b r).key = s.key := rfl
@[simp] theorem withTracing_reg (q : RegIdx) : (s.withTracing b r).reg q = s.reg q := rfl
@[simp] theorem withTracing_regsUpTo (x : RegIdx) : (s.withTracing b r).regsUpTo x = s.regsUpTo x := rfl

theorem skipIf_withTracing (c : Bool) : (s.withTracing b r).skipIf c = (s.skipIf c).withTracing b r := by
  cases c <;> rfl

theorem setResultAndFlag_withTracing (o : Config.VfOrder) (x : RegIdx) (a : Byte) (f : Bool) :
    (s.withTracing b r).setResultAndFlag o x a f = (s.setResultAndFlag o x a f).withTracing b r := by
  cases o <;> rfl

theorem push_withTracing (a : Word) : (s.withTracing b r).push a = (s.push a).map (·.withTracing b r) := by
  by_cases h : s.sp.val < 16 <;> simp [State.push, State.withTracing, h]

theorem pop_withTracing : (s.withTracing b r).pop = s.pop.map fun p => (p.1, p.2.withTracing b r) := by
  by_cases h : 0 < s.sp.val <;> simp [State.pop, State.withTracing, h]

theorem writeData_withTracing (bs : List Byte) :
    (s.withTracing b r).writeData bs = (s.writeData bs).map (·.withTracing b r) := by
  simp only [State.writeData, State.withTracing]
  split <;> rfl

theorem readData_withTracing (k : Nat) : (s.withTracing b r).readData k = s.readData k := rfl

theorem drawRnd_withTracing : (s.withTracing b r).drawRnd = (s.drawRnd.1, s.drawRnd.2.withTracing b r) := by
  simp only [State.drawRnd, State.withTracing]
  split <;> rfl

theorem setRegsFrom_withTracing (k : Nat) (bs : List Byte) :
    (s.withTracing b r).setRegsFrom k bs = (s.setRegsFrom k bs).withTracing b r := by
  induction bs generalizing s k with
  | nil => rfl
  | cons a bs ih =>
    rw [State.setRegsFrom, State.setRegsFrom, ← ih]
    split <;> rfl

/-! ### Instructions and the tracing parts (R221) -/

/-- Every instruction ends in a next state, and commutes with replacing the tracing parts. -/
theorem exec_withTracing (i : Instr) :
    ∃ t, exec i s = .next t ∧ exec i (s.withTracing b r) = .next (t.withTracing b r) := by
  cases i
  case nop | cls | jp | jpV0 | ldImm | addImm | ldReg | orReg | andReg | xorReg | ldI | addIVx | ldFVx | ldVxDT | ldDTVx
      | ldSTVx =>
    exact ⟨_, rfl, rfl⟩
  case seImm | sneImm | seReg | sneReg => exact ⟨_, rfl, congrArg _ (skipIf_withTracing s b r _)⟩
  case addReg | subReg | shr | subnReg | shl =>
    exact ⟨_, rfl, congrArg _ (setResultAndFlag_withTracing s b r _ _ _ _)⟩
  case rnd =>
    simp only [exec, execRnd, drawRnd_withTracing]
    exact ⟨_, rfl, rfl⟩
  -- the instructions with two outcomes: the same one in both states
  case call =>
    simp only [exec, execCall, push_withTracing, withTracing_pc]
    cases s.push s.pc <;> exact ⟨_, rfl, rfl⟩
  case ret =>
    simp only [exec, execRet, pop_withTracing]
    cases s.pop <;> exact ⟨_, rfl, rfl⟩
  case ldBVx x =>
    simp only [exec, execLdBVx, writeData_withTracing, withTracing_reg]
    cases s.writeData (bcdDigits (s.reg x)) <;> exact ⟨_, rfl, rfl⟩
  case storeRegs x =>
    simp only [exec, execStoreRegs, writeData_withTracing, withTracing_regsUpTo]
    cases s.writeData (s.regsUpTo x) <;> exact ⟨_, rfl, rfl⟩
  case loadRegs x =>
    simp only [exec, execLoadRegs, readData_withTracing, setRegsFrom_withTracing]
    cases s.readData (x.val + 1) <;> exact ⟨_, rfl, rfl⟩
  case drw x y n =>
    simp only [exec, execDrw, readData_withTracing]
    cases s.readData n <;> exact ⟨_, rfl, rfl⟩
  case skp x | sknp x =>
    simp only [exec, execSkp, execSknp, skipIf_withTracing, withTracing_key, withTracing_reg]
    cases lookupKey keyIndexPolicy s.key (s.reg x) <;> exact ⟨_, rfl, rfl⟩
  case ldVxK =>
    simp only [exec, execLdVxK, withTracing_key]
    cases firstKeyDown s.key <;> exact ⟨_, rfl, rfl⟩

/-! ### The instruction cycle and the switch (R100, R220) -/

theorem fetchWord_setTrace : (s.setTrace b).fetchWord = s.fetchWord := rfl

theorem quietOutputs_setTrace : (s.setTrace b).quietOutputs = s.quietOutputs.withTracing b none := rfl

/-- The fetch is the one place that reads `DBG`: it decides only the record. -/
theorem fetched_setTrace (w : Word) :
    (s.setTrace b).fetched w = (s.fetched w).withTracing b (if b then some ⟨s.pc, w⟩ else none) := rfl

/-- A step commutes with setting the switch, but for the record it emits. -/
theorem step_setTrace : ∃ t r, step s = .next t ∧ step (s.setTrace b) = .next (t.withTracing b r) := by
  simp only [step, fetchWord_setTrace, quietOutputs_setTrace, fetched_setTrace]
  cases s.fetchWord with
  | none => exact ⟨_, _, rfl, rfl⟩
  | some w =>
    dsimp only
    cases decodeWord w with
    | error => exact ⟨_, _, rfl, rfl⟩
    | ok i =>
      obtain ⟨t, ht, ht'⟩ := exec_withTracing (s.fetched w) b (if b then some ⟨s.pc, w⟩ else none) i
      exact ⟨t, _, ht, ht'⟩

end

/-- Settles O13: the switch reaches a step only through the record the fetch emits, and no instruction reads that. -/
theorem tracingNeverChangesState : Obligations.TracingNeverChangesState := by
  intro s b
  obtain ⟨t, r, ht, ht'⟩ := step_setTrace s b
  exact ⟨t, t.withTracing b r, ht, ht', rfl⟩

end Sys2Proof.Machine
end

section
/-! PROOF. The encoder and the decoder undo each other (30_encoding.md R70 to R77), and the words no instruction is read
from (section 4), with O1, O3, O4 and O5. -/

namespace Sys2Proof

variable {w : Word} {i : Instr}

/-! ### Decoding an encoded instruction (R75) -/

/-- The fields of a layout are the operands, and the class and the last nibble or low byte select the row. -/
theorem decodeWord_encodeWord (hi : i.wf = true) : decodeWord (encodeWord i) = .ok i := by
  cases i
  case nop | cls | ret => rfl
  case drw n =>
    have hn : n ≤ 15 := of_decide_eq_true hi
    simpa [encodeWord, decodeWord] using Nat.lt_succ_of_le hn
  all_goals simp [encodeWord, decodeWord]

theorem decode_encode_append (hi : i.wf = true) (rest : List Byte) : decode (encode i ++ rest) = .ok (i, rest) := by
  simp [encode, decode, decodeWord_encodeWord hi]

/-- Settles O4: the two bytes give the word back, and its fields are the operands. -/
theorem decodeOfEncodeIsTheInstruction : Obligations.DecodeOfEncodeIsTheInstruction := fun _ rest hi =>
  decode_encode_append hi rest

/-! ### Encoding a decoded word (R75) -/

/-- The one operand that could be too large, the row count of `Dxyn`, is read from a nibble. -/
theorem wf_of_decodeWord (h : decodeWord w = .ok i) : i.wf = true := by
  revert h
  fun_cases decodeWord w <;> intro h <;> cases h
  case case28 => exact decide_eq_true (Nat.le_of_lt_succ (fieldN w).isLt)
  all_goals rfl

/-- Settles O5: each layout of the word's own fields is the word. -/
theorem encodeOfDecodeIsTheWord : Obligations.EncodeOfDecodeIsTheWord := fun _ _ h =>
  ⟨wf_of_decodeWord h, encodeWord_of_decodeWord h⟩

/-! ### The words of no row (30_encoding.md section 4) -/

/-- Settles O3: the accepting branches of the decoder and the rejecting ones, each with what it knows of the class and of
the last nibble or the low byte, read as numbers. -/
theorem unsupportedWordsAreTheSixClasses : Obligations.UnsupportedWordsAreTheSixClasses := by
  intro w
  fun_cases decodeWord w
  all_goals simp_all +zetaDelta [← BitVec.toNat_inj, toNat_fieldN1, toNat_fieldN, toNat_fieldNN]
  -- a nibble, and a class, that is none of those listed is one of the others
  case case22 | case42 => omega

/-! ### Written-out words -/

/-- Settles O1: the decoder evaluates to these answers. -/
theorem writtenOutWordsDecode : Obligations.WrittenOutWordsDecode := by
  unfold Obligations.WrittenOutWordsDecode
  decide

end Sys2Proof
end

section
/-! PROOF. Facts of the layer below the instructions: a sum and a run of writes as numbers and bytes, and the frames of the
updates of State. -/

namespace Sys2Proof.Machine

/-! ### Numbers and bytes -/

/-- The sum of R105 never reaches 65536. -/
theorem toNat_zextByte_add_zextAddr (b : Byte) (nnn : Addr12) :
    (zextByte b + zextAddr nnn).toNat = b.toNat + nnn.toNat := by
  have := b.isLt
  have := nnn.isLt
  rw [BitVec.toNat_add, toNat_zextByte, toNat_zextAddr]
  omega

/-- A stored run reads back byte by byte, on a canonical memory. -/
theorem Memory.read_writeRun_add {m : Memory} (h : m.wf = true) {a k : Nat} {bs : List Byte} (hr : a + bs.length ≤ 4096)
    (hk : k < bs.length) : (m.writeRun a bs).read (a + k) = bs[k] := by
  rw [Memory.read_writeRun h a bs hr, dif_pos (by omega)]
  simp

/-! ### Frames -/

/-- A part that stayed after all may be taken out of a frame. -/
theorem Frame.of_same {l l' : List Part} {s t : State} {p : Part} (h : Frame l s t) (hp : p.same s t)
    (hl : ∀ q ∈ l, q = p ∨ q ∈ l') : Frame l' s t := by
  intro q hq
  by_cases hqp : q = p
  · rwa [hqp]
  · exact h q fun hmem => (hl q hmem).elim hqp hq

section

variable (s : State)

theorem frame_withStackPc (stack : Vector Word 16) (sp : Fin 17) (pc : Word) :
    Frame [.pc, .stack] s { s with stack := stack, sp := sp, pc := pc } := by
  intro p hp
  cases p <;> simp_all [Part.same, State.reg]

theorem frame_withMem (m : Memory) : Frame [.memory] s { s with mem := m } := by
  intro p hp
  cases p <;> simp_all [Part.same, State.reg]

theorem frame_draw (d : Display) (f : Bool) : Frame [.reg 15, .display] s ({ s with px := d }.setFlag f) :=
  ((frame_withPx s d).trans (frame_setFlag _ f)).mono (by simp)

theorem frame_drawRnd : Frame [.random] s s.drawRnd.2 := by
  obtain ⟨b, bs, -, hdraw⟩ | ⟨-, hdraw⟩ := drawRnd_cases s <;>
  · rw [hdraw]
    intro p hp
    cases p <;> simp_all [Part.same, State.reg]

/-- A run of `x + 1` register loads from `V[0]` changes no register above `x`. -/
theorem frame_setRegsFrom_zero (x : RegIdx) {bs : List Byte} (hlen : bs.length = x.val + 1) :
    Frame (regParts x) s (s.setRegsFrom 0 bs) := by
  intro p hp
  cases p with
  | reg r =>
    have hr : x.val < r.val := Fin.not_le.mp fun hle => hp ((mem_regParts x r).mpr hle)
    simp only [Part.same, setRegsFrom_reg]
    exact dif_neg (by omega)
  | _ =>
    rw [setRegsFrom_eq]
    simp [Part.same]

theorem frame_withKey (key : Vector Bool 16) : Frame [.keys] s { s with key := key } := by
  intro p hp
  cases p <;> simp_all [Part.same, State.reg]

theorem frame_setTrace (on : Bool) : Frame [.debug] s (s.setTrace on) := by
  intro p hp
  cases p <;> simp_all [Part.same]

theorem frame_quietOutputs_report (e : ErrorKind) :
    Frame [.outputs] s { s.quietOutputs with report := some e } := by
  intro p hp
  cases p <;> simp_all [Part.same, State.reg]

theorem frame_fetched_report (w : Word) (e : ErrorKind) :
    Frame [.pc, .outputs] s { s.fetched w with report := some e } :=
  ((frame_fetched s w).trans (frame_report _ e)).mono (by simp)

end

end Sys2Proof.Machine
end

section
/-! PROOF. What each instruction can do, said once: an equation for an instruction with one outcome, and for one with two a
lemma that gives both with their conditions. Then, for every instruction: it reports an error whose condition holds and
changes nothing else, or completes and changes only its own parts; with O11 and O15. -/

namespace Sys2Proof.Machine

section Equations

variable (s : State) (x y : RegIdx) (nn : Byte)

/-! ### Instructions with one outcome -/

theorem exec_jpV0 (nnn : Addr12) : exec (.jpV0 nnn) s = .next (s.setPc (zextByte (s.reg 0) + zextAddr nnn)) := rfl

theorem exec_orReg : exec (.orReg x y) s = .next (s.setReg x (s.reg x ||| s.reg y)) := rfl

theorem exec_andReg : exec (.andReg x y) s = .next (s.setReg x (s.reg x &&& s.reg y)) := rfl

theorem exec_xorReg : exec (.xorReg x y) s = .next (s.setReg x (s.reg x ^^^ s.reg y)) := rfl

theorem exec_addReg : exec (.addReg x y) s =
    .next (s.setResultAndFlag .flagLast x (s.reg x + s.reg y) (carryFlag (s.reg x) (s.reg y))) := rfl

theorem exec_subReg : exec (.subReg x y) s =
    .next (s.setResultAndFlag .flagLast x (s.reg x - s.reg y) (notBorrowFlag (s.reg x) (s.reg y))) := rfl

theorem exec_subnReg : exec (.subnReg x y) s =
    .next (s.setResultAndFlag .flagLast x (s.reg y - s.reg x) (notBorrowFlag (s.reg y) (s.reg x))) := rfl

theorem exec_shr : exec (.shr x y) s =
    .next (s.setResultAndFlag .resultLast x (s.reg x >>> 1) (shiftRightFlag (s.reg x))) := rfl

theorem exec_shl : exec (.shl x y) s =
    .next (s.setResultAndFlag .resultLast x (s.reg x <<< 1) (shiftLeftFlag (s.reg x))) := rfl

theorem exec_rnd : exec (.rnd x nn) s = .next (s.drawRnd.2.setReg x (s.drawRnd.1 &&& nn)) := rfl

theorem exec_addIVx : exec (.addIVx x) s = .next (s.setI (s.i + zextByte (s.reg x))) := rfl

/-! ### Instructions with two outcomes -/

theorem exec_call_cases (nnn : Addr12) :
    (∃ h : s.sp.val < 16, exec (.call nnn) s = .next { s with
      stack := s.stack.set s.sp.val s.pc, sp := ⟨s.sp.val + 1, by omega⟩, pc := zextAddr nnn }) ∨
    (s.sp.val = 16 ∧ exec (.call nnn) s = raise .stackOverflow s) := by
  obtain ⟨h, hpush⟩ | ⟨h, hpush⟩ := push_cases s s.pc
  · exact .inl ⟨h, by simp only [exec, execCall, hpush]; rfl⟩
  · exact .inr ⟨h, by simp only [exec, execCall, hpush]⟩

theorem exec_ret_cases :
    (∃ h : 0 < s.sp.val, exec .ret s = .next { s with
      sp := ⟨s.sp.val - 1, by omega⟩, pc := s.stack[s.sp.val - 1]'(by omega) }) ∨
    (s.sp.val = 0 ∧ exec .ret s = raise .stackUnderflow s) := by
  obtain ⟨h, hpop⟩ | ⟨h, hpop⟩ := pop_cases s
  · exact .inl ⟨h, by simp only [exec, execRet, hpop]; rfl⟩
  · exact .inr ⟨h, by simp only [exec, execRet, hpop]⟩

theorem exec_ldBVx_cases :
    (s.i.toNat + 2 ≤ 0xFFF ∧
      exec (.ldBVx x) s = .next { s with mem := s.mem.writeRun s.i.toNat (bcdDigits (s.reg x)) }) ∨
    (0xFFF < s.i.toNat + 2 ∧ exec (.ldBVx x) s = raise .addressOutOfRange s) := by
  obtain ⟨h, hwrite⟩ | ⟨h, hwrite⟩ := writeData_cases s (bcdDigits (s.reg x)) <;> rw [length_bcdDigits] at h
  · exact .inl ⟨by omega, by simp only [exec, execLdBVx, hwrite]⟩
  · exact .inr ⟨by omega, by simp only [exec, execLdBVx, hwrite]⟩

theorem exec_storeRegs_cases :
    (s.i.toNat + x.val ≤ 0xFFF ∧
      exec (.storeRegs x) s = .next { s with mem := s.mem.writeRun s.i.toNat (s.regsUpTo x) }) ∨
    (0xFFF < s.i.toNat + x.val ∧ exec (.storeRegs x) s = raise .addressOutOfRange s) := by
  obtain ⟨h, hwrite⟩ | ⟨h, hwrite⟩ := writeData_cases s (s.regsUpTo x) <;> rw [length_regsUpTo] at h
  · exact .inl ⟨by omega, by simp only [exec, execStoreRegs, hwrite]⟩
  · exact .inr ⟨by omega, by simp only [exec, execStoreRegs, hwrite]⟩

theorem exec_loadRegs_cases :
    (s.i.toNat + x.val ≤ 0xFFF ∧
      exec (.loadRegs x) s = .next (s.setRegsFrom 0 (s.mem.readRun s.i.toNat (x.val + 1)))) ∨
    (0xFFF < s.i.toNat + x.val ∧ exec (.loadRegs x) s = raise .addressOutOfRange s) := by
  obtain ⟨h, hread⟩ | ⟨h, hread⟩ := readData_cases s (x.val + 1)
  · exact .inl ⟨by omega, by simp only [exec, execLoadRegs, hread]⟩
  · exact .inr ⟨by omega, by simp only [exec, execLoadRegs, hread]⟩

/-- The display and the collision after the `n` sprite rows at `I` are drawn at `(V[x], V[y])` (R152). -/
def State.drawn (s : State) (x y : RegIdx) (n : Nat) : Display × Bool :=
  drawRows (s.reg x).toNat (s.reg y).toNat (s.mem.readRun s.i.toNat n) (s.px, false)

theorem exec_drw_cases (n : Nat) :
    ((n = 0 ∨ s.i.toNat + n - 1 ≤ 0xFFF) ∧
      exec (.drw x y n) s = .next ({ s with px := (s.drawn x y n).1 }.setFlag (s.drawn x y n).2)) ∨
    ((1 ≤ n ∧ 0xFFF < s.i.toNat + n - 1) ∧ exec (.drw x y n) s = raise .addressOutOfRange s) := by
  obtain ⟨h, hread⟩ | ⟨h, hread⟩ := readData_cases s n
  · exact .inl ⟨by omega, by simp only [exec, execDrw, hread]; rfl⟩
  · exact .inr ⟨by omega, by simp only [exec, execDrw, hread]⟩

theorem exec_skp_cases :
    (∃ h : (s.reg x).toNat < 16, exec (.skp x) s = .next (s.skipIf s.key[(s.reg x).toNat])) ∨
    (15 < (s.reg x).toNat ∧ exec (.skp x) s = raise .indexOutOfRange s) := by
  obtain ⟨h, hkey⟩ | ⟨h, hkey⟩ := lookupKey_cases s.key (s.reg x)
  · exact .inl ⟨h, by simp only [exec, execSkp, hkey]⟩
  · exact .inr ⟨h, by simp only [exec, execSkp, hkey]⟩

theorem exec_sknp_cases :
    (∃ h : (s.reg x).toNat < 16, exec (.sknp x) s = .next (s.skipIf (!s.key[(s.reg x).toNat]))) ∨
    (15 < (s.reg x).toNat ∧ exec (.sknp x) s = raise .indexOutOfRange s) := by
  obtain ⟨h, hkey⟩ | ⟨h, hkey⟩ := lookupKey_cases s.key (s.reg x)
  · exact .inl ⟨h, by simp only [exec, execSknp, hkey]⟩
  · exact .inr ⟨h, by simp only [exec, execSknp, hkey]⟩

/-- `Fx0A` takes the lowest key down, or stays with `V[x]` the delay timer (R164). -/
theorem exec_ldVxK_cases :
    (∃ k : Fin 16, s.key[k] = true ∧ (∀ j : Fin 16, j < k → s.key[j] = false) ∧
      exec (.ldVxK x) s = .next ((s.setReg x s.dt).setReg x (BitVec.ofNat 8 k.val))) ∨
    ((∀ j : Fin 16, s.key[j] = false) ∧ exec (.ldVxK x) s = .next ((s.setReg x s.dt).setPc (s.pc - 2))) := by
  obtain ⟨k, hkey, hdown, hlow⟩ | ⟨hkey, hup⟩ := firstKeyDown_cases s.key
  · exact .inl ⟨k, hdown, hlow, by simp only [exec, execLdVxK, hkey]⟩
  · exact .inr ⟨hup, by simp only [exec, execLdVxK, hkey]⟩

end Equations

variable {i : Instr} {s t : State}

/-! ### An instruction completes or reports its error (R206 to R209) -/

/-- `exec i` takes `s` to `t` without a report of its own: only the parts the writers' lists name for `i` may change, and a
memory that `i` does not write is the same list. -/
structure Completes (i : Instr) (s t : State) : Prop where
  exec_eq : exec i s = .next t
  frame : Frame (mayWrite i) s t
  outputs : Part.same .outputs s t
  mem_eq : .memory ∉ mayWrite i → t.mem = s.mem

theorem completes_skipIf {c : Bool} (h : exec i s = .next (s.skipIf c)) (hpc : .pc ∈ mayWrite i) :
    ∃ t, Completes i s t := by
  rw [skipIf_eq] at h
  exact ⟨_, h, (frame_setPc s _).mono (by simpa using hpc), ⟨rfl, rfl⟩, fun _ => rfl⟩

/-- Everything an instruction can do. -/
theorem exec_cases (i : Instr) (s : State) :
    (∃ e, meetsError i s e ∧ exec i s = raise e s) ∨ ((∀ e, ¬ meetsError i s e) ∧ ∃ t, Completes i s t) := by
  cases i
  -- one outcome, one update
  case nop => exact .inr ⟨fun _ => id, _, exec_nop s, frame_refl _ s, ⟨rfl, rfl⟩, fun _ => rfl⟩
  case cls => exact .inr ⟨fun _ => id, _, exec_cls s, frame_withPx s _, ⟨rfl, rfl⟩, fun _ => rfl⟩
  case ldDTVx => exact .inr ⟨fun _ => id, _, exec_ldDTVx _ s, frame_withDt s _, ⟨rfl, rfl⟩, fun _ => rfl⟩
  case ldSTVx => exact .inr ⟨fun _ => id, _, exec_ldSTVx _ s, frame_withSt s _, ⟨rfl, rfl⟩, fun _ => rfl⟩
  case jp | jpV0 => exact .inr ⟨fun _ => id, _, rfl, frame_setPc s _, ⟨rfl, rfl⟩, fun _ => rfl⟩
  case ldI | addIVx | ldFVx => exact .inr ⟨fun _ => id, _, rfl, frame_setI s _, ⟨rfl, rfl⟩, fun _ => rfl⟩
  case ldImm | addImm | ldReg | orReg | andReg | xorReg | ldVxDT =>
    exact .inr ⟨fun _ => id, _, rfl, frame_setReg s _ _, ⟨rfl, rfl⟩, fun _ => rfl⟩
  case addReg | subReg | subnReg | shr | shl =>
    exact .inr ⟨fun _ => id, _, rfl, frame_setResultAndFlag _ s _ _ _, ⟨rfl, rfl⟩, fun _ => rfl⟩
  case seImm | sneImm | seReg | sneReg => exact .inr ⟨fun _ => id, completes_skipIf rfl (by simp [mayWrite])⟩
  case rnd x nn =>
    have hf := (frame_drawRnd s).trans (frame_setReg s.drawRnd.2 x (s.drawRnd.1 &&& nn))
    have hmem : s.drawRnd.2.mem = s.mem := by obtain ⟨_, _, _, h⟩ | ⟨_, h⟩ := drawRnd_cases s <;> rw [h]
    exact .inr ⟨fun _ => id, _, exec_rnd s x nn, hf.mono (by simp [mayWrite]), hf .outputs (by simp), fun _ => hmem⟩
  -- a success or an error
  case call nnn =>
    obtain ⟨hsp, he⟩ | ⟨hfull, he⟩ := exec_call_cases s nnn
    · exact .inr ⟨fun _ ⟨_, hfull⟩ => by omega, _, he, (frame_withStackPc s _ _ _).mono (by simp [mayWrite]), ⟨rfl, rfl⟩,
        fun _ => rfl⟩
    · exact .inl ⟨_, ⟨rfl, hfull⟩, he⟩
  case ret =>
    obtain ⟨hsp, he⟩ | ⟨hempty, he⟩ := exec_ret_cases s
    · exact .inr ⟨fun _ ⟨_, hempty⟩ => by omega, _, he, (frame_withStackPc s _ _ _).mono (by simp [mayWrite]), ⟨rfl, rfl⟩,
        fun _ => rfl⟩
    · exact .inl ⟨_, ⟨rfl, hempty⟩, he⟩
  case ldBVx x =>
    obtain ⟨hin, he⟩ | ⟨hout, he⟩ := exec_ldBVx_cases s x
    · exact .inr ⟨fun _ ⟨_, hout⟩ => by omega, _, he, (frame_withMem s _).mono (by simp [mayWrite]), ⟨rfl, rfl⟩,
        fun hm => absurd (by simp [mayWrite]) hm⟩
    · exact .inl ⟨_, ⟨rfl, hout⟩, he⟩
  case storeRegs x =>
    obtain ⟨hin, he⟩ | ⟨hout, he⟩ := exec_storeRegs_cases s x
    · exact .inr ⟨fun _ ⟨_, hout⟩ => by omega, _, he, (frame_withMem s _).mono (by simp [mayWrite]), ⟨rfl, rfl⟩,
        fun hm => absurd (by simp [mayWrite]) hm⟩
    · exact .inl ⟨_, ⟨rfl, hout⟩, he⟩
  case loadRegs x =>
    obtain ⟨hin, he⟩ | ⟨hout, he⟩ := exec_loadRegs_cases s x
    · have hf := frame_setRegsFrom_zero s x (s.mem.length_readRun s.i.toNat (x.val + 1))
      exact .inr ⟨fun _ ⟨_, hout⟩ => by omega, _, he, hf.mono (by simp +contextual [mayWrite]),
        hf .outputs (by simp [regParts]), fun _ => by rw [setRegsFrom_eq]⟩
    · exact .inl ⟨_, ⟨rfl, hout⟩, he⟩
  case drw x y n =>
    obtain ⟨hin, he⟩ | ⟨hout, he⟩ := exec_drw_cases s x y n
    · exact .inr ⟨fun _ ⟨_, hn, hout⟩ => by omega, _, he, (frame_draw s _ _).mono (by simp [mayWrite]), ⟨rfl, rfl⟩,
        fun _ => rfl⟩
    · exact .inl ⟨_, ⟨rfl, hout⟩, he⟩
  case skp x =>
    obtain ⟨hkey, he⟩ | ⟨hout, he⟩ := exec_skp_cases s x
    · exact .inr ⟨fun _ ⟨_, hout⟩ => by omega, completes_skipIf he (by simp [mayWrite])⟩
    · exact .inl ⟨_, ⟨rfl, hout⟩, he⟩
  case sknp x =>
    obtain ⟨hkey, he⟩ | ⟨hout, he⟩ := exec_sknp_cases s x
    · exact .inr ⟨fun _ ⟨_, hout⟩ => by omega, completes_skipIf he (by simp [mayWrite])⟩
    · exact .inl ⟨_, ⟨rfl, hout⟩, he⟩
  -- a key, or the wait for one
  case ldVxK x =>
    obtain ⟨k, -, -, he⟩ | ⟨-, he⟩ := exec_ldVxK_cases s x
    · exact .inr ⟨fun _ => id, _, he, ((frame_setReg s x _).trans (frame_setReg _ x _)).mono (by simp [mayWrite]),
        ⟨rfl, rfl⟩, fun _ => rfl⟩
    · exact .inr ⟨fun _ => id, _, he, (frame_setReg s x _).trans (frame_setPc _ _), ⟨rfl, rfl⟩, fun _ => rfl⟩

/-! ### Consequences for every instruction -/

theorem exec_total (i : Instr) (s : State) : ∃ t, exec i s = .next t := by
  obtain ⟨e, -, he⟩ | ⟨-, t, ht⟩ := exec_cases i s
  · exact ⟨_, he⟩
  · exact ⟨t, ht.exec_eq⟩

/-- Everything that can be known of the state an instruction ends in. -/
theorem exec_next_cases (h : exec i s = .next t) :
    (∃ e, meetsError i s e ∧ t = { s with report := some e }) ∨ ((∀ e, ¬ meetsError i s e) ∧ Completes i s t) := by
  obtain ⟨e, hm, he⟩ | ⟨hno, u, hu⟩ := exec_cases i s
  · cases h.symm.trans he
    exact .inl ⟨e, hm, rfl⟩
  · cases h.symm.trans hu.exec_eq
    exact .inr ⟨hno, hu⟩

/-- The writers' lists name the report for every instruction that has an error condition (R206). -/
theorem outputs_mem_mayWrite {e : ErrorKind} (h : meetsError i s e) : .outputs ∈ mayWrite i := by
  cases i
  case ret | call | drw | skp | sknp | ldBVx | storeRegs | loadRegs => simp [mayWrite]
  all_goals exact absurd h id

theorem frame_exec (h : exec i s = .next t) : Frame (mayWrite i) s t := by
  obtain ⟨e, hm, rfl⟩ | ⟨-, ht⟩ := exec_next_cases h
  · exact (frame_report s e).mono (by simpa using outputs_mem_mayWrite hm)
  · exact ht.frame

/-- An instruction has one error condition at most. -/
theorem meetsError_unique {e e' : ErrorKind} (h : meetsError i s e) (h' : meetsError i s e') : e = e' := by
  cases i
  case ret | call | drw | skp | sknp | ldBVx | storeRegs | loadRegs => exact h.1.trans h'.1.symm
  all_goals exact absurd h id

/-- Settles O11: an instruction that meets its error condition ends in `raise`, and one that completes leaves the
report. -/
theorem errorsExactlyWhenTheirConditionHolds : Obligations.ErrorsExactlyWhenTheirConditionHolds := by
  intro i s hs
  obtain ⟨t, h⟩ := exec_total i s
  refine ⟨t, h, fun e => ?_⟩
  obtain ⟨e', hm', rfl⟩ | ⟨hno, ht⟩ := exec_next_cases h
  · refine ⟨⟨fun hr => ?_, fun hm => ?_⟩, fun hm => ?_⟩
    · cases hr
      exact hm'
    · rw [meetsError_unique hm hm']
    · rw [meetsError_unique hm hm']
  · refine ⟨⟨fun hr => ?_, fun hm => absurd hm (hno e)⟩, fun hm => absurd hm (hno e)⟩
    rw [ht.outputs.1, hs] at hr
    cases hr

theorem memorySameOutside_exec_ldBVx {x : RegIdx} (h : exec (.ldBVx x) s = .next t) :
    MemorySameOutside s.i.toNat 3 s t := by
  obtain ⟨-, he⟩ | ⟨-, he⟩ := exec_ldBVx_cases s x <;> rw [he] at h <;> cases h
  · exact fun _ => Memory.read_writeRun_outside s.mem s.i.toNat (bcdDigits (s.reg x))
  · exact memorySameOutside_report s _ _ _

theorem memorySameOutside_exec_storeRegs {x : RegIdx} (h : exec (.storeRegs x) s = .next t) :
    MemorySameOutside s.i.toNat (x.val + 1) s t := by
  rw [← length_regsUpTo s x]
  obtain ⟨-, he⟩ | ⟨-, he⟩ := exec_storeRegs_cases s x <;> rw [he] at h <;> cases h
  · exact fun _ => Memory.read_writeRun_outside s.mem s.i.toNat (s.regsUpTo x)
  · exact memorySameOutside_report s _ _ _

/-- Settles O15: the frame of every instruction, error or not, and the run of bytes of the two that store. -/
theorem instructionsWriteOnlyTheirParts : Obligations.InstructionsWriteOnlyTheirParts := by
  refine fun i s t h => ⟨frame_exec h, ?_, ?_⟩
  · rintro x rfl
    exact memorySameOutside_exec_ldBVx h
  · rintro x rfl
    exact memorySameOutside_exec_storeRegs h

end Sys2Proof.Machine
end

section
/-! PROOF. The instruction cycle (40_control_flow.md R100): the fetch, the two errors of the cycle and the instruction run,
with O6 to O8, O10, O12, O14 and O16. -/

namespace Sys2Proof

theorem toNat_wordOfBytes (hi lo : Byte) : (wordOfBytes hi lo).toNat = hi.toNat * 0x100 + lo.toNat := by
  have := hi.isLt
  have := lo.isLt
  rw [wordOfBytes, BitVec.toNat_ofNat]
  omega

theorem decodeWord_of_decode_pair {hi lo : Byte} {i : Instr} (h : decode [hi, lo] = .ok (i, [])) :
    decodeWord (wordOfBytes hi lo) = .ok i := by
  cases hd : decodeWord (wordOfBytes hi lo) <;> simp_all [decode]

end Sys2Proof

namespace Sys2Proof.Machine

variable {s t u : State} {w : Word} {i : Instr} {e : ErrorKind}

/-! ### The fetch (R54, R55) -/

theorem fetchWord_of_pc_le (h : s.pc.toNat ≤ 0xFFE) :
    s.fetchWord = some (wordOfBytes (s.mem.read s.pc.toNat) (s.mem.read (s.pc.toNat + 1))) := by
  obtain ⟨-, hw⟩ | ⟨hgt, -⟩ := fetchWord_cases s
  · exact hw
  · omega

theorem pc_le_of_fetchWord (hw : s.fetchWord = some w) : s.pc.toNat ≤ 0xFFE := by
  obtain ⟨hle, -⟩ | ⟨-, hnone⟩ := fetchWord_cases s
  · exact hle
  · simp [hnone] at hw

theorem pc_gt_of_fetchWord_none (hw : s.fetchWord = none) : 0xFFE < s.pc.toNat := by
  obtain ⟨-, hsome⟩ | ⟨hgt, -⟩ := fetchWord_cases s
  · simp [hsome] at hw
  · exact hgt

/-- Settles O6: the fetch reads the two bytes, and the step goes on from the fetched state. -/
theorem stepRunsTheDecodedInstruction : Obligations.StepRunsTheDecodedInstruction := by
  rintro s _ _ i hpc rfl rfl hd -
  have hw := fetchWord_of_pc_le hpc
  exact ⟨_, step_of_decodeWord hw (decodeWord_of_decode_pair hd), toNat_fetched_pc hw, rfl, rfl, frame_fetched s _⟩

/-! ### The failing fetch -/

/-- A state that a step leads to and leaves as it is ends every longer run. -/
theorem runSteps_succ_of_step_self (h : step s = .next t) (ht : step t = .next t) (k : Nat) :
    runSteps (k + 1) s = .next t := by
  induction k generalizing s with
  | zero => simp only [runSteps, h]
  | succ k ih =>
    rw [runSteps, h]
    exact ih ht

/-- Settles O7: the word is the one of the two bytes, and the state a failing fetch ends in fails in the same way. -/
theorem fetchIsBigEndianAndChecked : Obligations.FetchIsBigEndianAndChecked := by
  refine fun s => ⟨fun hpc => ?_, fun hpc => ?_⟩
  · have hw := fetchWord_of_pc_le hpc
    exact ⟨_, hw, toNat_wordOfBytes _ _, toNat_fetched_pc hw⟩
  · have hstep : step s = .next { s.quietOutputs with report := some .addressOutOfRange } := step_of_unfetchable_pc hpc
    have hself : step { s.quietOutputs with report := some .addressOutOfRange } =
        .next { s.quietOutputs with report := some .addressOutOfRange } := step_of_unfetchable_pc hpc
    exact ⟨_, hstep, rfl, rfl, frame_quietOutputs_report s _, runSteps_succ_of_step_self hstep hself⟩

/-! ### The unsupported word (R205) -/

theorem step_of_decodeWord_error {d : DecodeError} (hw : s.fetchWord = some w) (hd : decodeWord w = .error d) :
    step s = raise .unsupportedInstruction (s.fetched w) := by
  simp only [step, hw, hd]

/-- Settles O8: a word of no row is rejected by the decoder after the fetch advanced `PC`. -/
theorem unsupportedWordIsReported : Obligations.UnsupportedWordIsReported := fun s w hw hrow =>
  ⟨_, step_of_decodeWord_error hw (decodeWord_of_no_row hrow), rfl, toNat_fetched_pc hw, frame_fetched_report s w _⟩

/-! ### A step that reports an error (R207 to R210) -/

/-- Everything a step that reports an error can have done. -/
theorem step_error_cases (h : step s = .next t) (he : t.report = some e) :
    (s.fetchWord = none ∧ e = .addressOutOfRange ∧ t = { s.quietOutputs with report := some e }) ∨
    (∃ w, s.fetchWord = some w ∧ t = { s.fetched w with report := some e }) := by
  obtain ⟨hw, hs⟩ | ⟨w, d, hw, -, hs⟩ | ⟨w, i, hw, -, hs⟩ := step_cases s <;> rw [hs] at h
  · cases h
    cases he
    exact .inl ⟨hw, rfl, rfl⟩
  · cases h
    cases he
    exact .inr ⟨w, hw, rfl⟩
  · obtain ⟨e', -, rfl⟩ | ⟨-, ht⟩ := exec_next_cases h
    · cases he
      exact .inr ⟨w, hw, rfl⟩
    · rw [ht.outputs.1] at he
      cases he

/-- Settles O10: only the fetch and the report came before the error was taken. -/
theorem errorsArePrecise : Obligations.ErrorsArePrecise := by
  intro s t e h he
  obtain ⟨hw, rfl, rfl⟩ | ⟨w, hw, rfl⟩ := step_error_cases h he
  · exact ⟨(frame_quietOutputs_report s _).mono (by simp), .inl ⟨pc_gt_of_fetchWord_none hw, rfl, rfl⟩⟩
  · exact ⟨frame_fetched_report s w e, .inr ⟨pc_le_of_fetchWord hw, toNat_fetched_pc hw⟩⟩

/-- A step withdraws the outputs of the step before, so it does not depend on them (R210). -/
theorem step_withOutputs (s : State) (r : Option ErrorKind) (tr : Option TraceRecord) :
    step { s with report := r, trace := tr } = step s := rfl

/-- Settles O12: after an error the state differs from the one before in `PC` and the outputs only. -/
theorem noFaultLatch : Obligations.NoFaultLatch := by
  intro s t e h he
  obtain ⟨-, -, rfl⟩ | ⟨w, -, rfl⟩ := step_error_cases h he
  · exact step_withOutputs s _ _
  · exact step_withOutputs { s with pc := s.pc + 2 } _ _

/-! ### The trace record (R220) -/

theorem exec_trace (h : exec i s = .next t) : t.trace = s.trace := by
  obtain ⟨e, -, rfl⟩ | ⟨-, ht⟩ := exec_next_cases h
  · rfl
  · exact ht.outputs.2

/-- Settles O14: the fetch sets the record, and neither an error nor an instruction touches it. -/
theorem traceRecordPerFetchedWord : Obligations.TraceRecordPerFetchedWord := by
  intro s t h
  obtain ⟨hw, hs⟩ | ⟨w, d, hw, -, hs⟩ | ⟨w, i, hw, -, hs⟩ := step_cases s <;> rw [hs] at h <;> rw [hw]
  · cases h
    simp
  · cases h
    rfl
  · rw [exec_trace h]
    rfl

/-! ### Keys, the trace switch and the timers (R30, R31, R35, R167) -/

theorem keys_notMem_mayWrite (i : Instr) : .keys ∉ mayWrite i := by
  cases i <;> simp [mayWrite, regParts]

theorem debug_notMem_mayWrite (i : Instr) : .debug ∉ mayWrite i := by
  cases i <;> simp [mayWrite, regParts]

theorem eq_ldDTVx_of_delay_mem_mayWrite (h : .delay ∈ mayWrite i) : ∃ x, i = .ldDTVx x := by
  cases i
  case ldDTVx x => exact ⟨x, rfl⟩
  all_goals simp [mayWrite, regParts] at h

theorem eq_ldSTVx_of_sound_mem_mayWrite (h : .sound ∈ mayWrite i) : ∃ x, i = .ldSTVx x := by
  cases i
  case ldSTVx x => exact ⟨x, rfl⟩
  all_goals simp [mayWrite, regParts] at h

/-- A part that a step changes, other than `PC` and the outputs, is one the instruction run writes. -/
theorem same_step_or_mem_mayWrite {p : Part} (hp : p ∉ [.pc, .outputs]) (h : step s = .next t) :
    p.same s t ∨ ∃ w i, s.fetchWord = some w ∧ decodeWord w = .ok i ∧ p ∈ mayWrite i := by
  obtain ⟨-, hs⟩ | ⟨w, d, -, -, hs⟩ | ⟨w, i, hw, hd, hs⟩ := step_cases s <;> rw [hs] at h
  · cases h
    exact .inl ((frame_quietOutputs_report s _).mono (by simp) p hp)
  · cases h
    exact .inl (frame_fetched_report s w _ p hp)
  · by_cases hm : p ∈ mayWrite i
    · exact .inr ⟨w, i, hw, hd, hm⟩
    · exact .inl ((frame_fetched s w).trans (frame_exec h) p (by simp_all))

/-- Settles O16: no list of writers names a key or `DBG`, and one instruction each writes `DT` and `ST`. -/
theorem stepsLeaveKeysAndTimersToTheHost : Obligations.StepsLeaveKeysAndTimersToTheHost := by
  intro s t h
  refine ⟨?_, ?_, fun hdt => ?_, fun hst => ?_⟩
  · obtain hsame | ⟨_, i, -, -, hm⟩ := same_step_or_mem_mayWrite (p := .keys) (by simp) h
    · exact hsame
    · exact absurd hm (keys_notMem_mayWrite i)
  · obtain hsame | ⟨_, i, -, -, hm⟩ := same_step_or_mem_mayWrite (p := .debug) (by simp) h
    · exact hsame
    · exact absurd hm (debug_notMem_mayWrite i)
  · obtain hsame | ⟨w, i, hw, hd, hm⟩ := same_step_or_mem_mayWrite (p := .delay) (by simp) h
    · exact absurd hsame hdt
    · obtain ⟨x, rfl⟩ := eq_ldDTVx_of_delay_mem_mayWrite hm
      exact ⟨w, x, hw, hd⟩
  · obtain hsame | ⟨w, i, hw, hd, hm⟩ := same_step_or_mem_mayWrite (p := .sound) (by simp) h
    · exact absurd hsame hst
    · obtain ⟨x, rfl⟩ := eq_ldSTVx_of_sound_mem_mayWrite hm
      exact ⟨w, x, hw, hd⟩

end Sys2Proof.Machine
end

section
/-! PROOF. The invariant (10_state.md R27): every instruction keeps it after a fetch, and so does every step; with O18. -/

namespace Sys2Proof.Machine

variable {s t : State} {i : Instr} {a : Word}

/-! ### What an instruction leaves of the bounds -/

/-- Every stored address is at most 0x1000 (R27). -/
def StackBounded (s : State) : Prop := ∀ k : Fin 16, (s.stack[k]).toNat ≤ 0x1000

theorem exec_mem_wf (h : exec i s = .next t) (hwf : s.mem.wf = true) : t.mem.wf = true := by
  obtain ⟨e, -, rfl⟩ | ⟨-, ht⟩ := exec_next_cases h
  · exact hwf
  · cases i
    case ldBVx x =>
      obtain ⟨hin, he⟩ | ⟨-, he⟩ := exec_ldBVx_cases s x <;> cases h.symm.trans he
      · exact Memory.wf_writeRun hwf _ _ (by rw [length_bcdDigits]; omega)
      · exact hwf
    case storeRegs x =>
      obtain ⟨hin, he⟩ | ⟨-, he⟩ := exec_storeRegs_cases s x <;> cases h.symm.trans he
      · exact Memory.wf_writeRun hwf _ _ (by rw [length_regsUpTo]; omega)
      · exact hwf
    all_goals rwa [ht.mem_eq (by simp [mayWrite, regParts])]

/-- The call pushes `PC`, which is within the bound after a fetch; no other instruction writes a slot. -/
theorem exec_stackBounded (h : exec i s = .next t) (hpc : s.pc.toNat ≤ 0x1000) (hs : StackBounded s) :
    StackBounded t := by
  cases i
  case call nnn =>
    obtain ⟨hsp, he⟩ | ⟨-, he⟩ := exec_call_cases s nnn <;> rw [he] at h <;> cases h
    · intro k
      simp only [Fin.getElem_fin, Vector.getElem_set]
      split
      · exact hpc
      · exact hs k
    · exact hs
  case ret =>
    obtain ⟨_, he⟩ | ⟨-, he⟩ := exec_ret_cases s <;> rw [he] at h <;> cases h <;> exact hs
  all_goals
    intro k
    rw [(frame_exec h .stack (by simp [mayWrite, regParts])).1]
    exact hs k

theorem skipIf_pc_le (hpc : s.pc.toNat ≤ 0x1000) (c : Bool) : (s.skipIf c).pc.toNat ≤ 0x10FE := by
  rw [skipIf_pc]
  split <;> bv_omega

/-- `Bnnn` reaches the bound, 0xFF + 0xFFF; the key wait goes back to the instruction itself. -/
theorem exec_pc_le (h : exec i s = .next t) (hlo : 2 ≤ s.pc.toNat) (hhi : s.pc.toNat ≤ 0x1000) (hs : StackBounded s) :
    t.pc.toNat ≤ 0x10FE := by
  have hstay : s.pc.toNat ≤ 0x10FE := by omega
  cases i
  case jp nnn =>
    cases h
    have := zextAddr_le nnn
    rw [setPc_pc]
    omega
  case jpV0 nnn =>
    cases h
    rw [setPc_pc, toNat_zextByte_add_zextAddr]
    omega
  case call nnn =>
    obtain ⟨_, he⟩ | ⟨-, he⟩ := exec_call_cases s nnn <;> rw [he] at h <;> cases h
    · have := zextAddr_le nnn
      show (zextAddr nnn).toNat ≤ _
      omega
    · exact hstay
  case ret =>
    obtain ⟨hsp, he⟩ | ⟨-, he⟩ := exec_ret_cases s <;> rw [he] at h <;> cases h
    · have := hs ⟨s.sp.val - 1, by omega⟩
      exact this.trans (by decide)
    · exact hstay
  case seImm | sneImm | seReg | sneReg =>
    cases h
    exact skipIf_pc_le hhi _
  case skp x =>
    obtain ⟨_, he⟩ | ⟨-, he⟩ := exec_skp_cases s x <;> rw [he] at h <;> cases h
    · exact skipIf_pc_le hhi _
    · exact hstay
  case sknp x =>
    obtain ⟨_, he⟩ | ⟨-, he⟩ := exec_sknp_cases s x <;> rw [he] at h <;> cases h
    · exact skipIf_pc_le hhi _
    · exact hstay
  case ldVxK x =>
    obtain ⟨_, -, -, he⟩ | ⟨-, he⟩ := exec_ldVxK_cases s x <;> rw [he] at h <;> cases h
    · exact hstay
    · rw [setPc_pc]
      bv_omega
  all_goals
    rwa [show t.pc = s.pc from frame_exec h .pc (by simp [mayWrite, regParts])]

/-! ### The step -/

theorem Inv.fetched {w : Word} (hs : Inv s) (hw : s.fetchWord = some w) : Inv (s.fetched w) := by
  obtain ⟨hwf, -, hstack⟩ := hs
  have hle := pc_le_of_fetchWord hw
  have hpc := toNat_fetched_pc hw
  exact ⟨hwf, by omega, hstack⟩

/-- After a fetch `PC` is from 2 to 0x1000. -/
theorem exec_fetched_inv {w : Word} (hs : Inv s) (hw : s.fetchWord = some w) (h : exec i (s.fetched w) = .next t) :
    Inv t := by
  obtain ⟨hwf, -, hstack⟩ := hs
  have hpc := pc_le_of_fetchWord hw
  have hpc' := toNat_fetched_pc hw
  exact ⟨exec_mem_wf h hwf, exec_pc_le h (by omega) (by omega) hstack, exec_stackBounded h (by omega) hstack⟩

/-- Settles O18: a failing fetch changes no part the invariant speaks of, a fetch leaves `PC` at most 0x1000, and every
instruction keeps the invariant from there. -/
theorem stepKeepsTheInvariant : Obligations.StepKeepsTheInvariant := by
  intro s t hs h
  obtain ⟨-, he⟩ | ⟨w, _, hw, -, he⟩ | ⟨w, i, hw, -, he⟩ := step_cases s <;> rw [he] at h
  · cases h
    exact hs
  · cases h
    exact hs.fetched hw
  · exact exec_fetched_inv hs hw h

end Sys2Proof.Machine
end

section
/-! PROOF. The operations of the host (45_host_operations.md R170 to R184): each ends in a next state and keeps the
invariant, with O9, O17 and O19; and the moves that are no step, with O48 to O51. -/

namespace Sys2Proof.Machine

variable {s t : State}

/-! ### Every operation answers (R171, R210) -/

theorem step_total (s : State) : ∃ t, step s = .next t := by
  obtain ⟨-, he⟩ | ⟨w, _, -, -, he⟩ | ⟨w, i, -, -, he⟩ := step_cases s
  · exact ⟨_, he⟩
  · exact ⟨_, he⟩
  · rw [he]
    exact exec_total i _

/-- `step(rnd)` is a step with the byte injected, and what was injected otherwise stays. -/
theorem stepWith_of_step {b : Byte} (h : step { s with rndIn := [b] } = .next t) :
    stepWith b s = .next { t with rndIn := s.rndIn } := by
  simp only [stepWith, h]

theorem stepWith_total (b : Byte) (s : State) : ∃ t, stepWith b s = .next t := by
  obtain ⟨t, h⟩ := step_total { s with rndIn := [b] }
  exact ⟨_, stepWith_of_step h⟩

theorem perform_step {b : Byte} (h : stepWith b s = .next t) :
    (HostOp.step b).perform s = .next (t, .stepped t.report t.trace) := by
  simp only [HostOp.perform, h]

/-- Everything a load can do (R174). -/
theorem perform_load_cases (bytes : List Byte) (s : State) :
    (bytes.length ≤ 3584 ∧
      (HostOp.load bytes).perform s = .next ({ s with mem := s.mem.writeRun 0x200 bytes }, .result none)) ∨
    (3584 < bytes.length ∧ (HostOp.load bytes).perform s = .next (s, .result (some .memoryOverflow))) := by
  by_cases h : 0x200 + bytes.length ≤ 4096
  · exact .inl ⟨by omega, by simp only [HostOp.perform, State.load, h, if_true, settleResult]⟩
  · exact .inr ⟨by omega, by simp only [HostOp.perform, State.load, h, if_false, settleResult]⟩

/-- Everything a change of a key can do (R179). -/
theorem setKey_cases (index : Int) (pressed : Bool) (s : State) :
    (∃ k : Fin 16, (k.val : Int) = index ∧ s.setKey index pressed = .ok { s with key := s.key.set k pressed }) ∨
    ((index < 0 ∨ 15 < index) ∧ s.setKey index pressed = .error .indexOutOfRange) := by
  by_cases h : 0 ≤ index ∧ index ≤ 15
  · exact .inl ⟨⟨index.toNat, by omega⟩, by simp [h], by simp [State.setKey, h]⟩
  · exact .inr ⟨by omega, by simp [State.setKey, h]⟩

theorem perform_setKey (index : Int) (pressed : Bool) (s : State) :
    (HostOp.setKey index pressed).perform s = settleResult s (s.setKey index pressed) := rfl

theorem perform_total (op : HostOp) (s : State) : ∃ t r, op.perform s = .next (t, r) := by
  cases op
  case construct | reset | tickTimers | getDisplay | isBeeping | setTrace => exact ⟨_, _, rfl⟩
  case load bytes =>
    obtain ⟨-, h⟩ | ⟨-, h⟩ := perform_load_cases bytes s <;> exact ⟨_, _, h⟩
  case step b =>
    obtain ⟨t, h⟩ := stepWith_total b s
    exact ⟨_, _, perform_step h⟩
  case setKey index pressed =>
    rw [perform_setKey]
    obtain ⟨k, -, h⟩ | ⟨-, h⟩ := setKey_cases index pressed s <;> rw [h] <;> exact ⟨_, _, rfl⟩

/-- Settles O9: an instruction either completes or reports an error, and both are next states. -/
theorem everyOperationIsDefinedInEveryState : Obligations.EveryOperationIsDefinedInEveryState :=
  ⟨step_total, perform_total⟩

/-! ### The invariant (10_state.md R27) -/

/-- The invariant speaks of the memory, `PC` and the stack only. -/
theorem Inv.congr (hs : Inv s) (hmem : t.mem = s.mem) (hpc : t.pc = s.pc) (hstack : t.stack = s.stack) : Inv t := by
  rw [Inv, hmem, hpc, hstack]
  exact hs

/-- Settles O17: nothing is listed in memory, `PC` is 0x200 and every slot is 0. -/
theorem resetMeetsTheInvariant : Obligations.ResetMeetsTheInvariant :=
  ⟨reset_mem_wf, by decide, fun k => by rw [reset_stack]; decide⟩

theorem perform_inv {op : HostOp} {r : Reply} (hs : Inv s) (h : op.perform s = .next (t, r)) : Inv t := by
  cases op
  case construct | reset =>
    cases h
    exact Inv.congr resetMeetsTheInvariant rfl rfl rfl
  case tickTimers | getDisplay | isBeeping | setTrace =>
    cases h
    exact hs.congr rfl rfl rfl
  case load bytes =>
    obtain ⟨hlen, he⟩ | ⟨-, he⟩ := perform_load_cases bytes s <;> rw [he] at h <;> cases h
    · obtain ⟨hwf, hpc, hstack⟩ := hs
      exact ⟨Memory.wf_writeRun hwf _ _ (by omega), hpc, hstack⟩
    · exact hs
  case step b =>
    obtain ⟨u, hu⟩ := step_total { s with rndIn := [b] }
    have hoffered : Inv { s with rndIn := [b] } := hs.congr rfl rfl rfl
    have hinv : Inv u := stepKeepsTheInvariant _ _ hoffered hu
    rw [perform_step (stepWith_of_step hu)] at h
    cases h
    exact hinv.congr rfl rfl rfl
  case setKey index pressed =>
    rw [perform_setKey] at h
    obtain ⟨k, -, he⟩ | ⟨-, he⟩ := setKey_cases index pressed s <;> rw [he] at h <;> cases h
    · exact hs.congr rfl rfl rfl
    · exact hs

theorem powerOn_inv (bytes : List Byte) : Inv { State.reset with rndIn := bytes } :=
  Inv.congr resetMeetsTheInvariant rfl rfl rfl

theorem Reachable.inv (h : Reachable s) : Inv s := by
  induction h with
  | powerOn bytes => exact powerOn_inv bytes
  | move s t op r _ hmove ih => exact perform_inv ih hmove

/-- Settles O19: a step keeps the invariant whatever byte it is offered, a load writes inside memory, and no other operation
but `construct()` and `reset()` changes a part the invariant speaks of. -/
theorem reachableStatesMeetTheInvariant : Obligations.ReachableStatesMeetTheInvariant :=
  ⟨fun _ _ _ _ => perform_inv, powerOn_inv, fun _ => Reachable.inv⟩

/-! ### Loading a program (R174) -/

/-- Settles O49: the copy is a run of writes inside memory, made only when the program fits. -/
theorem loadCopiesOrRejects : Obligations.LoadCopiesOrRejects := by
  intro bytes s hwf
  obtain ⟨hlen, he⟩ | ⟨hlen, he⟩ := perform_load_cases bytes s
  · refine ⟨fun _ => ⟨_, he, fun k hk => ?_, ?_, frame_withMem s _⟩, fun hlong => by omega⟩
    · rw [Memory.read_writeRun_add hwf (by omega) hk, List.getElem?_eq_getElem hk]
    · exact fun _ => Memory.read_writeRun_outside s.mem 0x200 bytes
  · exact ⟨fun hfits => by omega, fun _ => he⟩

/-! ### Setting a key (R179) -/

/-- Settles O50: one write of the key vector, made only when the index is one of a key. -/
theorem setKeySetsOneKey : Obligations.SetKeySetsOneKey := by
  intro index pressed s
  rw [perform_setKey]
  obtain ⟨k, rfl, he⟩ | ⟨hout, he⟩ := setKey_cases index pressed s <;> rw [he]
  · refine ⟨fun _ _ => ⟨_, rfl, fun j => ?_, frame_withKey s _⟩, fun hout => by omega⟩
    simp only [Fin.getElem_fin, Vector.getElem_set, Nat.cast_inj, eq_comm]
  · exact ⟨fun hlo hhi => by omega, fun _ => rfl⟩

/-! ### The timers (R178) -/

theorem toNat_tickDown (b : Byte) : (tickDown b).toNat = b.toNat - 1 := by
  unfold tickDown
  split <;> bv_omega

/-- Settles O48: one tick takes one from each timer above zero, and the ticks add up by induction. -/
theorem ticksCountDownToZero : Obligations.TicksCountDownToZero := by
  refine fun s => ⟨⟨_, rfl, toNat_tickDown s.dt, toNat_tickDown s.st, ?_⟩, fun k => ?_⟩
  · exact (frame_withDt s (tickDown s.dt)).trans (frame_withSt _ (tickDown s.st))
  · induction k with
    | zero => exact ⟨rfl, rfl⟩
    | succ k ih =>
      obtain ⟨hdt, hst⟩ := ih
      rw [Function.iterate_succ_apply', tickTimers_dt, tickTimers_st, toNat_tickDown, toNat_tickDown, hdt, hst]
      omega

/-! ### The reads and the trace switch (R180 to R183) -/

/-- The elements of a flattened vector of rows are the rows in turn. -/
theorem toList_flatten {α : Type} {m n : Nat} (rows : Vector (Vector α m) n) :
    rows.flatten.toList = rows.toList.flatMap Vector.toList := by
  obtain ⟨a, rfl⟩ := rows
  simp only [Vector.flatten, Vector.toList, Array.toList_flatten, Array.toList_map, List.map_map]
  rfl

theorem getElem?_getDisplay (s : State) (x : Fin 64) (y : Fin 32) :
    s.getDisplay[y.val * 64 + x.val]? = some (s.px.get x y) := by
  have hlt : y.val * 64 + x.val < 32 * 64 := by omega
  have hrow : (y.val * 64 + x.val) / 64 = y.val := by omega
  have hcol : (y.val * 64 + x.val) % 64 = x.val := by omega
  rw [State.getDisplay, ← toList_flatten, Vector.getElem?_toList, Vector.getElem?_eq_getElem hlt, Vector.getElem_flatten]
  simp only [hrow, hcol, Display.get, Fin.getElem_fin]

theorem length_getDisplay (s : State) : s.getDisplay.length = 2048 := by
  rw [State.getDisplay, ← toList_flatten, Vector.length_toList]

/-- Settles O51: the grid is the rows in turn, 64 pixels each, and the three operations are one read or one write. -/
theorem hostReadsAndTraceSwitch : Obligations.HostReadsAndTraceSwitch := fun s on =>
  ⟨⟨_, rfl, length_getDisplay s, getElem?_getDisplay s⟩, ⟨_, rfl, isBeeping_eq_true_iff s⟩,
    ⟨_, rfl, rfl, frame_setTrace s on⟩⟩

end Sys2Proof.Machine
end

section
/-! PROOF. The jump `Bnnn`, the call and the return (40_control_flow.md R102, R104, R105), with O23 to O26. -/

namespace Sys2Proof.Machine

variable {s t : State}

/-- Settles O23: the sum is not reduced, so it may pass the last address a word can be fetched from. -/
theorem jpV0AddsRegisterZero : Obligations.JpV0AddsRegisterZero := fun nnn s => by
  have hpc := toNat_zextByte_add_zextAddr (s.reg 0) nnn
  refine ⟨_, exec_jpV0 s nnn, hpc, frame_setPc s _, fun hgt => ⟨_, step_of_unfetchable_pc ?_, rfl⟩⟩
  rwa [setPc_pc, hpc]

/-- Settles O24: the push writes one slot, or finds the stack full before any write. -/
theorem callPushesAndJumps : Obligations.CallPushesAndJumps := by
  intro nnn s
  obtain ⟨hsp, he⟩ | ⟨hfull, he⟩ := exec_call_cases s nnn
  · refine ⟨fun _ => ⟨_, he, toNat_zextAddr nnn, rfl, fun k => ?_, frame_withStackPc s _ _ _⟩, fun hfull => by omega⟩
    simp only [Fin.getElem_fin, Vector.getElem_set, eq_comm]
  · exact ⟨fun hsp => by omega, fun _ => he⟩

/-- Settles O25: the pop reads one slot and writes none, or finds the stack empty. -/
theorem retPopsThePc : Obligations.RetPopsThePc := by
  intro s
  obtain ⟨hsp, he⟩ | ⟨hempty, he⟩ := exec_ret_cases s
  · refine ⟨fun _ => ⟨_, he, Nat.sub_add_cancel hsp, fun k hk => ?_, rfl, frame_withStackPc s _ _ _⟩,
      fun hempty => by omega⟩
    simp only [← hk, Nat.add_sub_cancel, Fin.getElem_fin]
  · exact ⟨fun hsp => by omega, fun _ => he⟩

/-- Settles O26: the slot the return reads is the one the call wrote, and the call wrote no other. -/
theorem retReturnsAfterTheCall : Obligations.RetReturnsAfterTheCall := by
  intro nnn s t u hsp hcall hstack husp
  obtain ⟨t', he, -, htsp, hslots, -⟩ := (callPushesAndJumps nnn s).1 hsp
  cases hcall.symm.trans he
  obtain ⟨r, hr, hrsp, hrpc, hrstack, -⟩ := (retPopsThePc u).1 (by omega)
  refine ⟨r, hr, ?_, Fin.ext (by omega), fun k hk => ?_⟩
  · rw [hrpc ⟨s.sp.val, hsp⟩ (by rw [husp, htsp]), hstack, hslots, if_pos rfl]
  · rw [hrstack, hstack, hslots, if_neg (by omega)]

end Sys2Proof.Machine
end

section
/-! PROOF. Logic, arithmetic with a flag, shifts and the random byte (41_load_alu.md R124 to R133), and the arithmetic on `I`
(42_index_memory.md R141, R142), with O29 to O33 and O35. -/

namespace Sys2Proof.Machine

variable {s t : State} {i : Instr}

/-! ### Logic (R124 to R126) -/

/-- Settles O29: each of the three is one register write. -/
theorem logicIsBitwiseAndLeavesTheFlag : Obligations.LogicIsBitwiseAndLeavesTheFlag := by
  refine fun x y s => ⟨⟨_, exec_orReg s x y, frame_setReg s x _, fun k _ => ?_⟩,
    ⟨_, exec_andReg s x y, frame_setReg s x _, fun k _ => ?_⟩, ⟨_, exec_xorReg s x y, frame_setReg s x _, fun k _ => ?_⟩⟩
  · rw [setReg_reg_self, BitVec.getLsbD_or]
  · rw [setReg_reg_self, BitVec.getLsbD_and]
  · rw [setReg_reg_self, BitVec.getLsbD_xor]

/-! ### Addition and subtraction (R127, R128, R130) -/

section

variable (s : State) {x : RegIdx} (b : Byte) (f : Bool)

theorem setResultAndFlag_flagLast_reg_result (hx : x ≠ 15) : (s.setResultAndFlag .flagLast x b f).reg x = b := by
  simp [setResultAndFlag_reg, hx]

theorem setResultAndFlag_flagLast_reg_flag (x : RegIdx) :
    (s.setResultAndFlag .flagLast x b f).reg 15 = flagByte f := by
  simp [setResultAndFlag_reg]

theorem setResultAndFlag_resultLast_reg_result (x : RegIdx) : (s.setResultAndFlag .resultLast x b f).reg x = b := by
  simp [setResultAndFlag_reg]

theorem setResultAndFlag_resultLast_reg_flag (hx : x ≠ 15) :
    (s.setResultAndFlag .resultLast x b f).reg 15 = flagByte f := by
  simp [setResultAndFlag_reg, hx.symm]

end

theorem toNat_sub_eq_int_emod (a b : Byte) : ((a - b).toNat : Int) = (a.toNat - b.toNat : Int) % 256 := by
  have := a.isLt
  have := b.isLt
  rw [BitVec.toNat_sub]
  omega

/-- Settles O30: the result is written first and the flag last, both from the old operands. -/
theorem additionAndSubtractionSetTheFlag : Obligations.AdditionAndSubtractionSetTheFlag := by
  refine fun x y s => ⟨⟨_, exec_addReg s x y, frame_setResultAndFlag _ s x _ _, fun hx => ?_, ?_⟩,
    ⟨_, exec_subReg s x y, frame_setResultAndFlag _ s x _ _, fun hx => ?_, ?_⟩,
    ⟨_, exec_subnReg s x y, frame_setResultAndFlag _ s x _ _, fun hx => ?_, ?_⟩⟩
  · rw [setResultAndFlag_flagLast_reg_result s _ _ hx, BitVec.toNat_add]
  · rw [setResultAndFlag_flagLast_reg_flag, toNat_carryFlag]
  · rw [setResultAndFlag_flagLast_reg_result s _ _ hx, toNat_sub_eq_int_emod]
  · rw [setResultAndFlag_flagLast_reg_flag, toNat_notBorrowFlag]
  · rw [setResultAndFlag_flagLast_reg_result s _ _ hx, toNat_sub_eq_int_emod]
  · rw [setResultAndFlag_flagLast_reg_flag, toNat_notBorrowFlag]

/-! ### Shifts (R129, R132) -/

/-- Settles O31: the flag is written first and the shifted value last. -/
theorem shiftsSetTheFlagBeforeTheResult : Obligations.ShiftsSetTheFlagBeforeTheResult := by
  refine fun x y s => ⟨⟨_, exec_shr s x y, frame_setResultAndFlag _ s x _ _, ?_, fun hx => ?_⟩,
    ⟨_, exec_shl s x y, frame_setResultAndFlag _ s x _ _, ?_, fun hx => ?_⟩⟩
  · rw [setResultAndFlag_resultLast_reg_result, BitVec.toNat_ushiftRight, Nat.shiftRight_eq_div_pow]
  · rw [setResultAndFlag_resultLast_reg_flag s _ _ hx, toNat_shiftRightFlag]
  · rw [setResultAndFlag_resultLast_reg_result, BitVec.toNat_shiftLeft, Nat.shiftLeft_eq]
  · rw [setResultAndFlag_resultLast_reg_flag s _ _ hx, toNat_shiftLeftFlag]

/-! ### The random byte (R133) -/

/-- Settles O32: whatever byte is drawn, the mask leaves no bit outside `nn`. -/
theorem randomByteIsMasked : Obligations.RandomByteIsMasked := by
  intro x nn s
  refine ⟨_, exec_rnd s x nn, ?_, ?_, ?_, fun b bs hin => ?_⟩
  · exact ((frame_drawRnd s).trans (frame_setReg _ x _)).mono (by simp)
  · rw [setReg_reg_self, BitVec.and_assoc, BitVec.and_not_self]
    exact BitVec.and_zero
  · rintro rfl
    rw [setReg_reg_self]
    exact BitVec.and_zero
  · have hdraw : s.drawRnd = (b, { s with rndIn := bs, rndDrawn := s.rndDrawn + 1 }) := by simp only [State.drawRnd, hin]
    rw [setReg_reg_self, setReg_rndIn, hdraw]
    exact ⟨rfl, rfl⟩

/-! ### Arithmetic on the address register (R141, R142) -/

/-- Settles O35: each of the two is one write of `I`. -/
theorem addressArithmetic : Obligations.AddressArithmetic := by
  refine fun x s => ⟨⟨_, exec_addIVx s x, ?_, frame_setI s _⟩, ⟨_, exec_ldFVx x s, toNat_glyphAddress _, frame_setI s _⟩⟩
  rw [setI_i, BitVec.toNat_add, toNat_zextByte]

end Sys2Proof.Machine
end

section
/-! PROOF. The random input of a step (41_load_alu.md R133): no instruction but `Cxnn` reads the injected bytes, so a step
that runs another one, or none, commutes with injecting others; with O33. -/

namespace Sys2Proof.Machine

/-- `s` with other random bytes injected. -/
def State.withRndIn (s : State) (bytes : List Byte) : State := { s with rndIn := bytes }

section

variable (s : State) (bytes : List Byte)

/-! ### Operations and the injected bytes -/

@[simp] theorem withRndIn_pc : (s.withRndIn bytes).pc = s.pc := rfl
@[simp] theorem withRndIn_key : (s.withRndIn bytes).key = s.key := rfl
@[simp] theorem withRndIn_reg (q : RegIdx) : (s.withRndIn bytes).reg q = s.reg q := rfl

theorem skipIf_withRndIn (c : Bool) : (s.withRndIn bytes).skipIf c = (s.skipIf c).withRndIn bytes := by
  cases c <;> rfl

theorem push_withRndIn (a : Word) : (s.withRndIn bytes).push a = (s.push a).map (·.withRndIn bytes) := by
  by_cases h : s.sp.val < 16 <;> simp [State.push, State.withRndIn, h]

theorem pop_withRndIn : (s.withRndIn bytes).pop = s.pop.map fun p => (p.1, p.2.withRndIn bytes) := by
  by_cases h : 0 < s.sp.val <;> simp [State.pop, State.withRndIn, h]

theorem writeData_withRndIn (bs : List Byte) :
    (s.withRndIn bytes).writeData bs = (s.writeData bs).map (·.withRndIn bytes) := by
  simp only [State.writeData, State.withRndIn]
  split <;> rfl

theorem setRegsFrom_withRndIn (k : Nat) (bs : List Byte) :
    (s.withRndIn bytes).setRegsFrom k bs = (s.setRegsFrom k bs).withRndIn bytes := by
  induction bs generalizing s k with
  | nil => rfl
  | cons b bs ih =>
    rw [State.setRegsFrom, State.setRegsFrom, ← ih]
    split <;> rfl

/-! ### Instructions and the injected bytes -/

/-- Every instruction but `Cxnn` ends in a next state, and commutes with injecting other bytes. -/
theorem exec_withRndIn {i : Instr} (hi : ∀ x nn, i ≠ .rnd x nn) :
    ∃ t, exec i s = .next t ∧ exec i (s.withRndIn bytes) = .next (t.withRndIn bytes) := by
  cases i
  case rnd x nn => exact absurd rfl (hi x nn)
  case seImm | sneImm | seReg | sneReg => exact ⟨_, rfl, congrArg _ (skipIf_withRndIn s bytes _)⟩
  -- the instructions with two outcomes: the same one in both states
  case call =>
    simp only [exec, execCall, push_withRndIn, withRndIn_pc]
    cases s.push s.pc <;> exact ⟨_, rfl, rfl⟩
  case ret =>
    simp only [exec, execRet, pop_withRndIn]
    cases s.pop <;> exact ⟨_, rfl, rfl⟩
  case ldBVx x =>
    simp only [exec, execLdBVx, writeData_withRndIn, withRndIn_reg]
    cases s.writeData (bcdDigits (s.reg x)) <;> exact ⟨_, rfl, rfl⟩
  case storeRegs x =>
    have hregs : (s.withRndIn bytes).regsUpTo x = s.regsUpTo x := rfl
    simp only [exec, execStoreRegs, writeData_withRndIn, hregs]
    cases s.writeData (s.regsUpTo x) <;> exact ⟨_, rfl, rfl⟩
  case loadRegs x =>
    have hread : (s.withRndIn bytes).readData (x.val + 1) = s.readData (x.val + 1) := rfl
    simp only [exec, execLoadRegs, hread, setRegsFrom_withRndIn]
    cases s.readData (x.val + 1) <;> exact ⟨_, rfl, rfl⟩
  case drw x y n =>
    have hread : (s.withRndIn bytes).readData n = s.readData n := rfl
    simp only [exec, execDrw, hread]
    cases s.readData n <;> exact ⟨_, rfl, rfl⟩
  case skp x | sknp x =>
    simp only [exec, execSkp, execSknp, skipIf_withRndIn, withRndIn_key, withRndIn_reg]
    cases lookupKey keyIndexPolicy s.key (s.reg x) <;> exact ⟨_, rfl, rfl⟩
  case ldVxK =>
    simp only [exec, execLdVxK, withRndIn_key]
    cases firstKeyDown s.key <;> exact ⟨_, rfl, rfl⟩
  -- one update each, of another part
  all_goals exact ⟨_, rfl, rfl⟩

/-! ### The step and its input -/

variable {s}

theorem step_withRndIn (h : ∀ w x nn, s.fetchWord = some w → decodeWord w ≠ .ok (.rnd x nn)) :
    ∃ t, step s = .next t ∧ step (s.withRndIn bytes) = .next (t.withRndIn bytes) := by
  have hfetch : (s.withRndIn bytes).fetchWord = s.fetchWord := rfl
  obtain ⟨hw, he⟩ | ⟨w, d, hw, hd, he⟩ | ⟨w, i, hw, hd, he⟩ := step_cases s
  · exact ⟨_, he, by simp only [step, hfetch, hw]; rfl⟩
  · exact ⟨_, he, step_of_decodeWord_error (hfetch.trans hw) hd⟩
  · obtain ⟨t, ht, ht'⟩ := exec_withRndIn (s.fetched w) bytes fun x nn hi => h w x nn hw (hi ▸ hd)
    exact ⟨t, he.trans ht, (step_of_decodeWord (hfetch.trans hw) hd).trans ht'⟩

/-- Without `Cxnn` a step with an input is the step without one, what was injected put back. -/
theorem stepWith_eq_of_ne_rnd (h : ∀ w x nn, s.fetchWord = some w → decodeWord w ≠ .ok (.rnd x nn)) :
    ∃ t, ∀ b, stepWith b s = .next t := by
  obtain ⟨t, ht⟩ := step_total s
  refine ⟨t.withRndIn s.rndIn, fun b => ?_⟩
  obtain ⟨u, hu, hu'⟩ := step_withRndIn [b] h
  cases ht.symm.trans hu
  exact stepWith_of_step (t := t.withRndIn [b]) hu'

/-- With `Cxnn` the input is the byte drawn. -/
theorem stepWith_of_rnd {w : Word} {x : RegIdx} {nn b : Byte} (hw : s.fetchWord = some w)
    (hd : decodeWord w = .ok (.rnd x nn)) :
    ∃ t, stepWith b s = .next t ∧ t.reg x = b &&& nn ∧ t.report = none := by
  have hw' : (s.withRndIn [b]).fetchWord = some w := hw
  exact ⟨_, stepWith_of_step (step_of_decodeWord hw' hd), setReg_reg_self _ x (b &&& nn), rfl⟩

end

/-- Settles O33: `Cxnn` draws the input, and every other step commutes with the injection of it. -/
theorem onlyRandomInstructionUsesRnd : Obligations.OnlyRandomInstructionUsesRnd := by
  refine ⟨fun s w x nn b => stepWith_of_rnd, fun s a b h => ?_⟩
  obtain ⟨t, ht⟩ := stepWith_eq_of_ne_rnd h
  rw [ht a, ht b]

end Sys2Proof.Machine
end

section
/-! PROOF. The instructions that access memory based on `I` (42_index_memory.md R143 to R146), with O36 to O40. -/

namespace Sys2Proof.Machine

variable {s t : State}

/-! ### Decimal digits (R143) -/

theorem toNat_read_writeRun_bcdDigits {m : Memory} (h : m.wf = true) {a k : Nat} (hin : a + 2 ≤ 0xFFF) (hk : k < 3)
    (b : Byte) : ((m.writeRun a (bcdDigits b)).read (a + k)).toNat =
      [b.toNat / 100, b.toNat / 10 % 10, b.toNat % 10][k] := by
  rw [Memory.read_writeRun_add h (by rw [length_bcdDigits]; omega) hk]
  exact (List.getElem_map BitVec.toNat).symm.trans (List.getElem_of_eq (bcdDigits_toNat b) hk)

/-- Settles O36: the three digits are one run of three bytes. -/
theorem bcdStoresThreeDigits : Obligations.BcdStoresThreeDigits := by
  intro x s hwf
  obtain ⟨hin, he⟩ | ⟨hout, he⟩ := exec_ldBVx_cases s x
  · have hdigit {k : Nat} (hk : k < 3) := toNat_read_writeRun_bcdDigits hwf hin hk (s.reg x)
    exact ⟨fun _ => ⟨_, he, hdigit (k := 0) (by decide), hdigit (k := 1) (by decide), hdigit (k := 2) (by decide),
      memorySameOutside_exec_ldBVx he, frame_withMem s _⟩, fun hout => by omega⟩
  · exact ⟨fun hin => by omega, fun _ => he⟩

/-! ### Blocks of registers (R144, R145) -/

theorem read_exec_storeRegs {x k : RegIdx} (hwf : s.mem.wf = true) (hin : s.i.toNat + x.val ≤ 0xFFF) (hk : k ≤ x)
    (h : exec (.storeRegs x) s = .next t) : t.mem.read (s.i.toNat + k.val) = s.reg k := by
  obtain ⟨-, he⟩ | ⟨hout, -⟩ := exec_storeRegs_cases s x
  · cases h.symm.trans he
    have hlen := length_regsUpTo s x
    have hkx : k.val ≤ x.val := hk
    rw [Memory.read_writeRun_add hwf (by omega) (by omega), getElem_regsUpTo]
  · omega

/-- Settles O37: the registers are one run of `x + 1` bytes. -/
theorem storeRegistersWritesTheRun : Obligations.StoreRegistersWritesTheRun := by
  intro x s hwf
  obtain ⟨hin, he⟩ | ⟨hout, he⟩ := exec_storeRegs_cases s x
  · exact ⟨fun _ => ⟨_, he, fun k hk => read_exec_storeRegs hwf hin hk he, memorySameOutside_exec_storeRegs he,
      frame_withMem s _⟩, fun hout => by omega⟩
  · exact ⟨fun hin => by omega, fun _ => he⟩

/-- Settles O38: the run read is loaded register by register. -/
theorem loadRegistersReadsTheRun : Obligations.LoadRegistersReadsTheRun := by
  intro x s
  obtain ⟨hin, he⟩ | ⟨hout, he⟩ := exec_loadRegs_cases s x
  · refine ⟨fun _ => ⟨_, he, fun k hk => ?_, frame_setRegsFrom_zero s x (s.mem.length_readRun _ _)⟩, fun hout => by omega⟩
    have hkx : k.val ≤ x.val := hk
    rw [setRegsFrom_reg, dif_pos (by rw [Memory.length_readRun]; omega), Memory.getElem_readRun, Nat.sub_zero]
  · exact ⟨fun hin => by omega, fun _ => he⟩

theorem i_exec_storeRegs {x : RegIdx} (h : exec (.storeRegs x) s = .next t) : t.i = s.i :=
  exec_i_of_notMem_mayWrite h (by simp [mayWrite])

/-- Settles O39: the load reads the run the store wrote, from the same `I`. -/
theorem blockLoadUndoesBlockStore : Obligations.BlockLoadUndoesBlockStore := by
  intro x s t u hwf hin hstore hmem hi
  rw [i_exec_storeRegs hstore] at hi
  obtain ⟨r, hr, hregs, -⟩ := (loadRegistersReadsTheRun x u).1 (by rwa [hi])
  exact ⟨r, hr, fun k hk => by rw [hregs k hk, hmem, hi, read_exec_storeRegs hwf hin hk hstore]⟩

/-- Settles O40: the fetch reads the first two bytes of the run, at `PC` = `I`. -/
theorem storeIsSeenByTheNextFetch : Obligations.StoreIsSeenByTheNextFetch := by
  intro x s hwf hpc hx hin
  obtain ⟨t, ht, hread, -, hframe⟩ := (storeRegistersWritesTheRun x s hwf).1 hin
  have htpc : t.pc = s.i := (hframe .pc (by simp)).trans hpc.symm
  have h0 := hread 0 (Fin.zero_le x)
  have h1 := hread 1 hx
  refine ⟨t, ht, ?_⟩
  rw [fetchWord_of_pc_le (by rw [htpc]; omega), htpc]
  exact congrArg some (congrArg₂ wordOfBytes h0 h1)

end Sys2Proof.Machine
end

section
/-! PROOF. The sprite draw `Dxyn` (43_display.md R152), with O42 to O44. -/

namespace Sys2Proof.Machine

variable {s : State} {x y : RegIdx} {n : Nat}

/-- Displays with the same pixels are the same. -/
theorem Display.ext_get {d d' : Display} (h : ∀ px py, d.get px py = d'.get px py) : d = d' :=
  Vector.ext fun r hr => Vector.ext fun c hc => h ⟨c, hc⟩ ⟨r, hr⟩

/-- The sprite rows at `I` cover the pixels `SpriteCovers` says. -/
theorem rowsCover_readRun_iff (px : Fin 64) (py : Fin 32) :
    RowsCover (s.mem.readRun s.i.toNat n) (s.reg x).toNat (s.reg y).toNat px py ↔ SpriteCovers s x y n px py := by
  constructor
  · rintro ⟨r, hr, j, hj, hbit, hx, hy⟩
    rw [Memory.length_readRun] at hr
    rw [Memory.getElem_readRun] at hbit
    refine ⟨r, 7 - j, hr, by omega, ?_, by rw [hx, val_column], by rw [hy, val_row]⟩
    rwa [Nat.sub_sub_self (by omega)]
  · rintro ⟨r, c, hr, hc, hbit, hx, hy⟩
    refine ⟨r, by rwa [Memory.length_readRun], 7 - c, by omega, ?_, Fin.ext ?_, Fin.ext ?_⟩
    · rwa [Memory.getElem_readRun]
    · rw [val_column, hx, Nat.sub_sub_self (by omega)]
    · rw [val_row, hy]

/-- Everything a draw of at most 32 rows does to the display. -/
theorem drawn_spec (hn : n ≤ 32) :
    (∀ px py, (SpriteCovers s x y n px py → (s.drawn x y n).1.get px py = !s.px.get px py) ∧
      (¬ SpriteCovers s x y n px py → (s.drawn x y n).1.get px py = s.px.get px py)) ∧
    ((s.drawn x y n).2 = true ↔ ∃ px py, SpriteCovers s x y n px py ∧ s.px.get px py = true) := by
  have h := drawRows_spec (s.mem.readRun s.i.toNat n) (s.reg x).toNat (s.reg y).toNat
    (by rwa [Memory.length_readRun]) (s.px, false)
  simpa only [State.drawn, rowsCover_readRun_iff, Bool.false_eq_true, false_or] using h

theorem exec_drw_of_rows (hin : 1 ≤ n → s.i.toNat + n - 1 ≤ 0xFFF) :
    exec (.drw x y n) s = .next ({ s with px := (s.drawn x y n).1 }.setFlag (s.drawn x y n).2) := by
  obtain ⟨-, he⟩ | ⟨⟨hn, hout⟩, -⟩ := exec_drw_cases s x y n
  · exact he
  · have := hin hn
    omega

/-- A draw has at most fifteen rows. -/
theorem rows_le_of_wf (h : (Instr.drw x y n).wf = true) : n ≤ 32 :=
  Nat.le_trans (of_decide_eq_true h) (by decide)

/-- Settles O42: the sprite's pixels are toggled, and the flag is the collision. -/
theorem drawTogglesExactlyTheSpritePixels : Obligations.DrawTogglesExactlyTheSpritePixels := by
  intro x y n s hwf hin
  obtain ⟨hget, hhit⟩ := drawn_spec (s := s) (x := x) (y := y) (rows_le_of_wf hwf)
  refine ⟨_, exec_drw_of_rows hin, frame_draw s _ _, hget, fun h => ?_, fun h => ?_⟩
  · rw [setFlag_reg, if_pos rfl, hhit.mpr h]
    rfl
  · rw [setFlag_reg, if_pos rfl, Bool.eq_false_iff.mpr (hhit.not.mpr h)]
    rfl

theorem spriteCovers_congr {u : State} (hmem : u.mem = s.mem) (hi : u.i = s.i) (hx : u.reg x = s.reg x)
    (hy : u.reg y = s.reg y) (px : Fin 64) (py : Fin 32) :
    SpriteCovers u x y n px py ↔ SpriteCovers s x y n px py := by
  simp only [SpriteCovers, hmem, hi, hx, hy]

/-- Settles O43: a pixel the sprite covers is toggled twice, any other never. -/
theorem drawingTwiceRestoresTheDisplay : Obligations.DrawingTwiceRestoresTheDisplay := by
  intro x y n s t u hwf hin hdraw hpx hmem hi hx hy
  obtain ⟨t', ht, -, hfirst, -⟩ := drawTogglesExactlyTheSpritePixels x y n s hwf hin
  cases hdraw.symm.trans ht
  obtain ⟨r, hr, -, hsecond, -⟩ := drawTogglesExactlyTheSpritePixels x y n u hwf (by rwa [hi])
  refine ⟨r, hr, Display.ext_get fun px py => ?_⟩
  have hcover := spriteCovers_congr (n := n) hmem hi hx hy px py
  by_cases hc : SpriteCovers s x y n px py
  · rw [(hsecond px py).1 (hcover.mpr hc), hpx, (hfirst px py).1 hc, Bool.not_not]
  · rw [(hsecond px py).2 (hcover.not.mpr hc), hpx, (hfirst px py).2 hc]

/-- Settles O44: the rows are checked before the first pixel; with no row there is nothing to check and nothing drawn. -/
theorem drawChecksItsRowsFirst : Obligations.DrawChecksItsRowsFirst := by
  refine fun x y n s => ⟨fun hn hout => ?_, ?_⟩
  · obtain ⟨hin, -⟩ | ⟨-, he⟩ := exec_drw_cases s x y n
    · omega
    · exact he
  · exact ⟨s.setFlag false, exec_drw_of_rows (fun hn => by omega), setReg_reg_self s 15 0, frame_setFlag s false⟩

end Sys2Proof.Machine
end

section
/-! PROOF. The keys (44_keypad_timers.md R160 to R164), with O45 and O47. -/

namespace Sys2Proof.Machine

variable {s : State}

/-- Settles O45: the key is looked up before the skip. -/
theorem keySkipsReadTheKey : Obligations.KeySkipsReadTheKey := by
  refine fun x s => ⟨fun k hk => ⟨?_, ?_⟩, fun hout => ⟨?_, ?_⟩⟩
  · obtain ⟨_, he⟩ | ⟨hout, -⟩ := exec_skp_cases s x
    · refine ⟨_, he, ?_, frame_skipIf s _⟩
      simp only [skipIf_pc, hk, Fin.getElem_fin]
    · omega
  · obtain ⟨_, he⟩ | ⟨hout, -⟩ := exec_sknp_cases s x
    · refine ⟨_, he, ?_, frame_skipIf s _⟩
      simp only [skipIf_pc, hk, Fin.getElem_fin]
      cases s.key[k.val] <;> rfl
    · omega
  · obtain ⟨_, -⟩ | ⟨-, he⟩ := exec_skp_cases s x
    · omega
    · exact he
  · obtain ⟨_, -⟩ | ⟨-, he⟩ := exec_sknp_cases s x
    · omega
    · exact he

/-- With no key down the wait writes `DT` and goes back (R164). -/
theorem exec_ldVxK_of_no_key (x : RegIdx) (hup : ∀ j : Fin 16, s.key[j] = false) :
    exec (.ldVxK x) s = .next ((s.setReg x s.dt).setPc (s.pc - 2)) := by
  obtain ⟨k, hdown, -, -⟩ | ⟨-, he⟩ := exec_ldVxK_cases s x
  · exact absurd (hup k) (by simp [hdown])
  · exact he

/-- Settles O47: the lowest key down is the only one with no key down below it. -/
theorem waitForKeyTakesTheLowestKeyOrStays : Obligations.WaitForKeyTakesTheLowestKeyOrStays := by
  refine fun x s => ⟨fun k hdown hlow => ?_, fun hup => ?_, fun hup w hw hd => ?_⟩
  · obtain ⟨j, hjdown, hjlow, he⟩ | ⟨hup, -⟩ := exec_ldVxK_cases s x
    · have hjk : j = k := by
        refine le_antisymm (not_lt.mp fun hlt => ?_) (not_lt.mp fun hlt => ?_)
        · simp [hjlow k hlt] at hdown
        · simp [hlow j hlt] at hjdown
      subst hjk
      refine ⟨_, he, ?_, ((frame_setReg s x _).trans (frame_setReg _ x _)).mono (by simp)⟩
      rw [setReg_reg_self, BitVec.toNat_ofNat, Nat.mod_eq_of_lt (by omega)]
    · exact absurd (hup k) (by simp [hdown])
  · exact ⟨_, exec_ldVxK_of_no_key x hup, setReg_reg_self s x s.dt, rfl, (frame_setReg s x _).trans (frame_setPc _ _)⟩
  · have hstep := (step_of_decodeWord hw hd).trans (exec_ldVxK_of_no_key (s := s.fetched w) x hup)
    have hpc : s.pc + 2 - 2 = s.pc := BitVec.add_sub_cancel s.pc 2
    have hframe := ((frame_fetched s w).trans (frame_setReg _ x s.dt)).trans (frame_setPc _ (s.pc + 2 - 2))
    exact ⟨_, hstep, rfl, setReg_reg_self _ x s.dt, hpc, hframe.of_same (p := .pc) hpc (by simp)⟩

end Sys2Proof.Machine
end

section
/-! PROOF. Runs (70_reset_and_hazards.md R233, R245): the parked core and the run of no-ops of an empty memory, with O52 and
O53. -/

namespace Sys2Proof.Machine

variable {s t : State}

/-! ### The parked core -/

theorem Parked.congr (hs : Parked s) (hmem : t.mem = s.mem) (hpc : t.pc = s.pc) : Parked t := by
  simpa only [Parked, State.fetchWord, hmem, hpc] using hs

/-- Settles O52: the jump sets `PC` to what it was, and neither a tick nor a key changes the word at `PC`. -/
theorem parkedCoreStaysParked : Obligations.ParkedCoreStaysParked := by
  intro s hs
  refine ⟨?_, hs.congr rfl rfl, fun index pressed t ht => ?_⟩
  · obtain ⟨w, nnn, hw, hd, hnnn⟩ := id hs
    have hpc : zextAddr nnn = s.pc := BitVec.eq_of_toNat_eq (by rw [toNat_zextAddr, hnnn])
    have hframe := (frame_fetched s w).trans (frame_setPc _ (zextAddr nnn))
    exact ⟨_, (step_of_decodeWord hw hd).trans (exec_jp nnn _), rfl, hframe.of_same (p := .pc) hpc (by simp),
      hs.congr rfl hpc⟩
  · obtain ⟨k, -, he⟩ | ⟨-, he⟩ := setKey_cases index pressed s <;> rw [he] at ht <;> cases ht
    exact hs.congr rfl rfl

/-! ### The empty memory -/

/-- The reset state but for `PC`. -/
def resetAt (pc : Nat) : State := { State.reset with pc := BitVec.ofNat 16 pc }

theorem fetchWord_resetAt {pc : Nat} (hlo : 80 ≤ pc) (hhi : pc ≤ 0xFFE) : (resetAt pc).fetchWord = some 0x0000 := by
  have hpc : (resetAt pc).pc.toNat = pc := Nat.mod_eq_of_lt (by omega)
  have hread {a : Nat} (ha : 80 ≤ a) : (resetAt pc).mem.read a = 0 := unlisted_eq_zero ha
  rw [fetchWord_of_pc_le (by rwa [hpc]), hpc, hread hlo, hread (by omega)]
  rfl

theorem fetched_resetAt (pc : Nat) : (resetAt pc).fetched 0x0000 = resetAt (pc + 2) := by
  have hpc : BitVec.ofNat 16 (pc + 2) = BitVec.ofNat 16 pc + 2 := BitVec.ofNat_add pc 2
  rw [resetAt, resetAt, hpc]
  rfl

theorem step_resetAt {pc : Nat} (hlo : 80 ≤ pc) (hhi : pc ≤ 0xFFE) : step (resetAt pc) = .next (resetAt (pc + 2)) := by
  rw [step_of_nop (fetchWord_resetAt hlo hhi), fetched_resetAt]

theorem runSteps_resetAt {k pc : Nat} (hlo : 80 ≤ pc) (hhi : pc + 2 * k ≤ 0x1000) :
    runSteps k (resetAt pc) = .next (resetAt (pc + 2 * k)) := by
  induction k generalizing pc with
  | zero => rfl
  | succ k ih =>
    rw [runSteps, step_resetAt hlo (by omega)]
    have hsum : pc + 2 + 2 * k = pc + 2 * (k + 1) := by omega
    exact hsum ▸ ih (by omega) (by omega)

/-- One step more at the end of a run. -/
theorem runSteps_succ_of_runSteps {k : Nat} (h : runSteps k s = .next t) : runSteps (k + 1) s = step t := by
  induction k generalizing s with
  | zero =>
    obtain ⟨u, hu⟩ := step_total s
    cases h
    simp only [runSteps, hu]
  | succ k ih =>
    obtain ⟨u, hu⟩ := step_total s
    rw [runSteps, hu] at h ⊢
    exact ih h

/-- Settles O53: every word from 0x200 up is a no-op, and 0x1000 is the first address from which none can be fetched. -/
theorem emptyMemoryRunsNoOps : Obligations.EmptyMemoryRunsNoOps := by
  have hrun (k : Nat) (hk : k ≤ 1792) : runSteps k State.reset = .next (resetAt (0x200 + 2 * k)) :=
    runSteps_resetAt (pc := 0x200) (by decide) (by omega)
  refine ⟨hrun, ?_⟩
  rw [runSteps_succ_of_runSteps (hrun 1792 (Nat.le_refl _))]
  exact step_of_unfetchable_pc (by decide)

end Sys2Proof.Machine
end
